-- ==== Sys2Proof/Word.lean ====
section
/-! DEFINITION. The word types of the block (00_scope.md R16) and their plainest arithmetic. -/

namespace Sys2Proof

/-- A register value: 32 bits, unsigned (00_scope.md R13, R16). -/
abbrev Word := BitVec 32

/-- A buffer byte: 8 bits, unsigned (00_scope.md R16). -/
abbrev Byte := BitVec 8

/-- `ceil_div(a, b) = (a + b - 1) div b` (00_scope.md R16). -/
def ceilDiv (a b : Nat) : Nat := (a + b - 1) / b

end Sys2Proof
end

