-- ==== Sys2Proof/Config.lean ====
section
/-! DEFINITION. The parameters a platform fixes for one instance of the block, and the free values the spec
leaves open. -/

namespace Sys2Proof

/-- The two data buffers of the block (20_memory.md R200). -/
inductive Buf where
  | ibuf
  | obuf
deriving DecidableEq, Repr

/-- The OPEN parameters of 00_scope.md R10 and R11. LATENCY (R12) is the schedule held in the state. -/
structure Params where
  /-- `BUF_BYTES`, the size in bytes of IBUF and of OBUF (R10). -/
  bufBytes : Nat
  /-- `APERTURE_BASE`, the host address of the aperture (R11). -/
  apertureBase : Nat
deriving DecidableEq, Repr

/-- The length of the aperture: 4 MiB, a 22-bit offset (20_memory.md R200). -/
def apertureBytes : Nat := 0x400000

/-- The reference configuration of R10. The placement 0 is a DESIGN CHOICE (log entry 1): R11 leaves it open. -/
def Params.reference : Params := { bufBytes := 131072, apertureBase := 0 }

/-- FREE VALUE. The byte the spec leaves unspecified at buffer offset `offset` of buffer `b`, on the occasion numbered
`draw` (93_implementation_defined.md U1 to U5). It has no body: no proof can tell its value. -/
opaque Config.freeByte (b : Buf) (draw offset : Nat) : Byte

end Sys2Proof
end

