-- ==== Sys2Proof/Syntax.lean ====
section
/-! DEFINITION. The commands of the block, one constructor for each row of spec/opcode_table.json. -/

namespace Sys2Proof

/-- The eight commands (30_encoding.md R301, R302). A command word has no operand fields: a command's operands are
registers and IBUF. -/
inductive Instr where
  | nop
  | b64e
  | b64d
  | sha1
  | fdec
  | fenc
  | xmask
  | accept
deriving DecidableEq, Repr

end Sys2Proof
end

