-- ==== Sys2Proof/WellFormed.lean ====
section
/-! DEFINITION. Well-formedness of commands and of the parameters. -/

namespace Sys2Proof

/-- Every command is well formed: a command word has no operand field that could be out of range (30_encoding.md
R300, R302). -/
def Instr.wf : Instr → Bool
  | .nop => true
  | .b64e => true
  | .b64d => true
  | .sha1 => true
  | .fdec => true
  | .fenc => true
  | .xmask => true
  | .accept => true

/-- The legal parameters: `128 <= BUF_BYTES <= 2^20` (00_scope.md R10), `APERTURE_BASE` aligned to 4 MiB (R11). -/
def Params.wf (p : Params) : Bool :=
  decide (128 ≤ p.bufBytes) && decide (p.bufBytes ≤ 2 ^ 20) && decide (p.apertureBase % apertureBytes = 0)

end Sys2Proof
end

