-- ==== Sys2Proof/Decode.lean ====
section
/-! DEFINITION. The command word: decoder, then encoder (30_encoding.md R300 to R305). -/

namespace Sys2Proof

/-- Why a command word is none of the eight commands (R305). Every such word completes with BAD_COMMAND (R712). -/
inductive BadWord where
  /-- CMD[31:4] is not zero. -/
  | nonzeroHighBits
  /-- OP in 0x8..0xF. -/
  | reservedOpcode
deriving DecidableEq, Repr

/-- Field OP, bits 3:0 (R300). -/
def opField (w : Word) : BitVec 4 := w.extractLsb' 0 4

/-- Field MBZ, bits 31:4 (R300). -/
def mbzField (w : Word) : BitVec 28 := w.extractLsb' 4 28

/-- The command opcode map (R301). -/
def commandOfOp (op : BitVec 4) : Except BadWord Instr :=
  match op.toNat with
  | 0 => .ok .nop
  | 1 => .ok .b64e
  | 2 => .ok .b64d
  | 3 => .ok .sha1
  | 4 => .ok .fdec
  | 5 => .ok .fenc
  | 6 => .ok .xmask
  | 7 => .ok .accept
  | _ => .error .reservedOpcode

/-- A word selects a command exactly when `OP <= 0x7` and `MBZ = 0` (R302); any other word is rejected by name (R305). -/
def decode (w : Word) : Except BadWord Instr :=
  if mbzField w = 0 then commandOfOp (opField w) else .error .nonzeroHighBits

/-- The command opcode of R301. -/
def opOfCommand : Instr → BitVec 4
  | .nop => 0
  | .b64e => 1
  | .b64d => 2
  | .sha1 => 3
  | .fdec => 4
  | .fenc => 5
  | .xmask => 6
  | .accept => 7

/-- The command word of a command: OP in bits 3:0, zeros above (R300, R302). -/
def encode (i : Instr) : Word := (opOfCommand i).setWidth 32

/-- The command the decoder reads from a word numbered as spec/opcode_table.json numbers it: one 32-bit word. -/
def decodeTableWord (nbits w : Nat) : Option Instr :=
  match decode (BitVec.ofNat 32 (w % 2 ^ nbits)) with
  | .ok i => some i
  | .error _ => none

end Sys2Proof
end

