-- ==== Sys2Proof/Machine/State.lean ====
section
/-! DEFINITION. The state of one instance of the block and of the host that drives it, as plain data; the outcomes a
step can stop with; the state after reset. -/

namespace Sys2Proof.Machine

/-- The error codes of STATUS.ERR (60_exceptions.md R801). Codes 6..15 are never written by the block (R801, U10). -/
inductive ErrCode where
  | none
  | truncatedFrame
  | invalidCharacter
  | capacity
  | badLength
  | badCommand
deriving DecidableEq, Repr

/-- STATUS less BUSY (10_state.md R103): BUSY is computed from the in-flight command (R121, log entry 14). Reserved
bits read 0 and hold nothing. -/
structure Status where
  done : Bool
  uopc : Bool
  ovr : Bool
  err : ErrCode
deriving DecidableEq, Repr

/-- DIGEST0..DIGEST4 (10_state.md R117), and the running state H[0..4] of the SHA-1 engine (41_sha1.md R503). -/
structure Digest where
  h0 : Word
  h1 : Word
  h2 : Word
  h3 : Word
  h4 : Word
deriving DecidableEq, Repr

/-- A buffer: the bytes with a specified value, as (buffer offset, byte) pairs with the offsets strictly rising. An
unlisted offset holds an unspecified byte (R124, R211). -/
abbrev Memory := List Host.Cell

/-- The width of a host access (20_memory.md R202, R203). -/
inductive Width where
  | w8
  | w16
  | w32
deriving DecidableEq, Repr

/-- One operation of the host, by host address (30_encoding.md R330), a poll of `WAIT` (R331), or the platform's reset
input (70_reset_and_hazards.md R900). -/
inductive HostOp where
  | read (w : Width) (addr : Nat)
  | write (w : Width) (addr : Nat) (data : Word)
  | wait
  | hardReset
deriving DecidableEq, Repr

/-- The two agents (00_scope.md R22). -/
inductive Agent where
  | host
  | block
deriving DecidableEq, Repr

/-- The bus response to the host's last access (10_state.md R123). Read data is zero-extended to 32 bits (R16). -/
inductive BusResp where
  | noAccess
  | written
  | data (v : Word)
deriving DecidableEq, Repr

/-- The state. The first group is the block's (spec/10_state.md), the second the host's side, the third the model's
bookkeeping of free values. -/
structure State where
  /-- BUF_BYTES, which BUF_SIZE reads (R113), and APERTURE_BASE (00_scope.md R11). -/
  cfg : Params
  /-- CTRL.IE (R102). -/
  ie : Bool
  /-- STATUS less BUSY (R103). -/
  status : Status
  /-- IN_LEN (R110). -/
  inLen : Word
  /-- OUT_LEN (R111). -/
  outLen : Word
  /-- FRAME_HDR[8:0] (R112); bits 31:9 are reserved, read 0 and hold nothing. -/
  frameHdr : BitVec 9
  /-- PAYLOAD_LEN (R114). -/
  payloadLen : Word
  /-- MASK_KEY (R115). -/
  maskKey : Word
  /-- WIRE_LEN (R116). -/
  wireLen : Word
  /-- DIGEST0..DIGEST4 (R117). -/
  digest : Digest
  /-- IBUF (R118). -/
  ibuf : Memory
  /-- OBUF (R119). -/
  obuf : Memory
  /-- The in-flight command: the command word latched at issue, none when BUSY = 0 (R121). -/
  inflight : Option Word
  /-- The host's operations still to come, in program order (00_scope.md R22). -/
  host : List HostOp
  /-- Which agent makes each coming step: the parameter LATENCY (00_scope.md R12, log entry 7). -/
  sched : List Agent
  /-- The bus response to the host's last access. -/
  resp : BusResp
  /-- MODEL'S OWN: the number of the next occasion at which a free value is drawn (log entry 12). -/
  draws : Nat
  /-- MODEL'S OWN: the occasion at which all of OBUF last became unspecified (log entry 12). -/
  obufEpoch : Nat
  /-- MODEL'S OWN: the occasion of the last hardware reset, at which all of IBUF became unspecified (log entry 12). -/
  ibufEpoch : Nat
deriving DecidableEq, Repr

/-- The four cases of a bus error (60_exceptions.md R830). -/
inductive BusError where
  /-- Case 1: an offset in a "none" range of R201, or a register offset R100 does not list. -/
  | unmapped
  /-- Case 2: a register access that is not 32 bits wide and 4-byte aligned. -/
  | registerAccess
  /-- Case 3: a buffer access that is misaligned or reaches offset BUF_BYTES or above. -/
  | bufferAccess
  /-- Case 4: a write to the OBUF window. -/
  | obufWrite
deriving DecidableEq, Repr

/-- Why a run ends. -/
inductive Fault where
  /-- Raised by a host access that R830 calls a bus error; R831 has a model end the host's run. SAFE: a platform that
  goes on is not followed further (log entry 8). -/
  | busError (e : BusError)
deriving DecidableEq, Repr

/-- What the model gives no meaning. -/
inductive Refusal where
  /-- Raised by no arm of `exec`: every command has a meaning. SAFE. -/
  | notModelled (mnemonic : String)
  /-- Raised by a host access whose host address lies outside the aperture: it does not reach the block, and the spec
  says nothing of what stands there (R11, R201). SAFE (log entry 9). -/
  | outsideAperture (addr : Nat)
deriving DecidableEq, Repr

/-- STATUS as 0x00000000 (R124). -/
def Status.zero : Status := { done := false, uopc := false, ovr := false, err := .none }

/-- All DIGEST registers 0 (R124). -/
def Digest.zero : Digest := { h0 := 0, h1 := 0, h2 := 0, h3 := 0, h4 := 0 }

/-- The machine right after hardware reset (R124, R900, R901), in the reference configuration (R10): every register 0,
no command in flight, every buffer byte unspecified, the host about to do nothing. -/
def State.reset : State where
  cfg := Params.reference
  ie := false
  status := Status.zero
  inLen := 0
  outLen := 0
  frameHdr := 0
  payloadLen := 0
  maskKey := 0
  wireLen := 0
  digest := Digest.zero
  ibuf := []
  obuf := []
  inflight := none
  host := []
  sched := []
  resp := .noAccess
  draws := 1
  obufEpoch := 0
  ibufEpoch := 0

end Sys2Proof.Machine
end

