-- ==== Sys2Proof/Machine/Flags.lean ====
section
/-! DEFINITION. STATUS: its fields, its word, what issue, completion and the host's W1C write do to it; IRQ. -/

namespace Sys2Proof.Machine

/-- STATUS.BUSY: a command is in flight (10_state.md R104, R121). -/
def State.busy (s : State) : Bool := s.inflight.isSome

/-- The number of an error code (60_exceptions.md R801). -/
def ErrCode.code : ErrCode → BitVec 4
  | .none => 0
  | .truncatedFrame => 1
  | .invalidCharacter => 2
  | .capacity => 3
  | .badLength => 4
  | .badCommand => 5

/-- One bit as a word. -/
def flagBit (b : Bool) (pos : Nat) : Word := if b then 1 <<< pos else 0

/-- The word a read of STATUS returns (10_state.md R103): BUSY 0, DONE 1, UOPC 2, OVR 3, ERR 11:8, the rest 0. -/
def State.statusWord (s : State) : Word :=
  flagBit s.busy 0 ||| flagBit s.status.done 1 ||| flagBit s.status.uopc 2 ||| flagBit s.status.ovr 3
    ||| (s.status.err.code.setWidth 32 <<< 8)

/-- STATUS after issue: DONE, ERR and UOPC cleared, OVR unchanged (30_encoding.md R303). -/
def Status.issued (st : Status) : Status := { st with done := false, uopc := false, err := .none }

/-- STATUS after completion: DONE set, ERR the command's code, UOPC as the command says, OVR unchanged
(30_encoding.md R304, 10_state.md R105 to R108; log entry 15 for UOPC). -/
def Status.completed (st : Status) (err : ErrCode) (uopc : Bool) : Status :=
  { st with done := true, uopc := uopc, err := err }

/-- STATUS after a host write of `v`: bits 1 (DONE) and 3 (OVR) are W1C, every other bit ignores the write
(10_state.md R101, R103, R105, R107). -/
def Status.w1c (st : Status) (v : Word) : Status :=
  { st with done := st.done && !v.getLsbD 1, ovr := st.ovr && !v.getLsbD 3 }

/-- The reserved frame opcodes 0x3..0x7 and 0xB..0xF (30_encoding.md R320, R321), which FDEC reports in UOPC (R616). -/
def reservedOpcode (opcode : BitVec 4) : Bool :=
  let n := opcode.toNat
  (decide (3 ≤ n) && decide (n ≤ 7)) || decide (11 ≤ n)

/-- `IRQ = CTRL.IE & STATUS.DONE` (10_state.md R123). -/
def State.irq (s : State) : Bool := s.ie && s.status.done

end Sys2Proof.Machine
end

