-- ==== Sys2Proof/Machine/Ops.lean ====
section
/-! DEFINITION. The named operations of the block: byte order, buffers, issue, completion, the command error (the
block's only exception, R820), the host's acknowledgement of it, soft and hardware reset. -/

namespace Sys2Proof.Machine

/-! ### Byte order and text (00_scope.md R17) -/

/-- `ascii("...")`: the bytes of an ASCII text, one per character. -/
def ascii (text : String) : List Byte := text.toList.map fun c => BitVec.ofNat 8 c.toNat

/-- `be_N(v)`: the N-byte big-endian encoding, byte k is `(v >> (8*(N-1-k))) & 0xFF`. -/
def beBytes (n v : Nat) : List Byte := (List.range n).map fun k => BitVec.ofNat 8 (v >>> (8 * (n - 1 - k)))

/-- `from_be(s)`: the number whose big-endian encoding is s. -/
def fromBe (s : List Byte) : Nat := s.foldl (fun acc b => acc * 256 + b.toNat) 0

/-- The bytes on the host bus's lanes: lane k is data bits [8k+7 : 8k] (20_memory.md R204). -/
def laneBytes (n : Nat) (v : Word) : List Byte := (List.range n).map fun k => v.extractLsb' (8 * k) 8

/-- The data word whose lane k is byte k, zero above (20_memory.md R204, R16). -/
def fromLanes (s : List Byte) : Word := s.foldr (fun b acc => (acc <<< 8) ||| b.setWidth 32) 0

/-- `s[i : i+n)` (R17). -/
def slice (s : List Byte) (i n : Nat) : List Byte := (s.drop i).take n

/-! ### Buffers -/

/-- The specified byte at an offset, if it has one. -/
def Memory.get (m : Memory) (o : Nat) : Option Byte :=
  match m with
  | [] => none
  | (a, b) :: rest => if a = o then some b else Memory.get rest o

/-- The cells of a run of bytes from offset `o` on. -/
def cellsFrom (o : Nat) (bs : List Byte) : Memory := bs.mapIdx fun i b => (o + i, b)

/-- Write a run of bytes from offset `o` on; every other cell stays. -/
def Memory.write (m : Memory) (o : Nat) (bs : List Byte) : Memory :=
  m.filter (fun c => c.1 < o) ++ cellsFrom o bs ++ m.filter (fun c => o + bs.length ≤ c.1)

/-- The canonical form, for a buffer of `size` bytes: offsets strictly rising, and below the size. An unlisted
offset reads as no fixed value, so no entry repeats it. -/
abbrev Memory.wf (size : Nat) (m : Memory) : Prop :=
  m.Pairwise (fun a b => a.1 < b.1) ∧ ∀ c ∈ m, c.1 < size

/-- A byte of IBUF as the host's reads find it: the byte written there, else the free value that cell has held since the
hardware reset (R124; R208 and R853 let no read and no idle time change it; log entry 3). -/
def State.ibufCell (s : State) (o : Nat) : Byte :=
  (s.ibuf.get o).getD (Config.freeByte .ibuf s.ibufEpoch o)

/-- A byte of IBUF as a command's read finds it: the byte written there, else a value drawn freshly for that read
(20_memory.md R211). -/
def State.ibufByte (s : State) (o : Nat) : Byte :=
  (s.ibuf.get o).getD (Config.freeByte .ibuf s.draws o)

/-- A byte of OBUF while no command is in flight: the byte written there, else the free value of that cell since all of
OBUF last became unspecified (R124, R902, log entry 4). -/
def State.obufByte (s : State) (o : Nat) : Byte :=
  (s.obuf.get o).getD (Config.freeByte .obuf s.obufEpoch o)

/-- `MemRead(IB + i, n)` (00_scope.md R18, 20_memory.md R209). -/
def State.memRead (s : State) (i n : Nat) : List Byte := (List.range n).map fun k => s.ibufByte (i + k)

/-- `MemWrite(OB + 0, len(bs), bs); reg[OUT_LEN] <- len(bs)`: how every command that gives output delivers it
(00_scope.md R18, 10_state.md R111, R119). -/
def State.deliver (s : State) (bs : List Byte) : State :=
  { s with obuf := s.obuf.write 0 bs, outLen := BitVec.ofNat 32 bs.length }

/-! ### Issue and completion (30_encoding.md R303, R304) -/

/-- Issue of command word `w` (R303): latched, BUSY set with it, DONE, ERR and UOPC cleared. -/
def State.issue (s : State) (w : Word) : State := { s with inflight := some w, status := s.status.issued }

/-- The completion every command ends in: BUSY cleared, DONE set, ERR and UOPC written (R304). The command's draw of
free values is over. -/
def State.finish (s : State) (err : ErrCode) (uopc : Bool) : State :=
  { s with inflight := none, status := s.status.completed err uopc, draws := s.draws + 1 }

/-- `complete` (00_scope.md R18): the successful end of a command. -/
def complete (s : State) (uopc : Bool) : Host.Outcome State Fault Refusal := .next (s.finish .none uopc)

/-- The bytes OBUF is left with where B64D fails on a character: `3*(IN_LEN div 4)` bytes, each drawn
(60_exceptions.md R810, log entry 6). -/
def State.spoilt (s : State) : List Byte :=
  (List.range (3 * (s.inLen.toNat / 4))).map fun i => Config.freeByte .obuf s.draws i

/-- `raise CommandError(code)`: what every command error commits (60_exceptions.md R810), in one place. OUT_LEN is 0,
UOPC is 0, and OBUF is disturbed for INVALID_CHARACTER alone. -/
def raiseError (code : ErrCode) (s : State) : Host.Outcome State Fault Refusal :=
  let t := { s with outLen := 0 }
  .next ((if code = .invalidCharacter then { t with obuf := t.obuf.write 0 t.spoilt } else t).finish code false)

/-- The host's acknowledgement of a completion or of an overrun, the block's only return from an error (60_exceptions.md
R821): the W1C write of STATUS. -/
def State.acknowledge (s : State) (v : Word) : State := { s with status := s.status.w1c v }

/-- A write to a frozen input while BUSY: discarded, OVR set (10_state.md R107). -/
def State.overrun (s : State) : State := { s with status := { s.status with ovr := true } }

/-! ### Reset (10_state.md R124) -/

/-- Every register at its reset value, any command in flight abandoned. -/
def State.resetRegisters (s : State) : State :=
  { s with
    ie := false
    status := Status.zero
    inLen := 0
    outLen := 0
    frameHdr := 0
    payloadLen := 0
    maskKey := 0
    wireLen := 0
    digest := Digest.zero
    inflight := none }

/-- All of OBUF becomes unspecified. -/
def State.obufLost (s : State) : State := { s with obuf := [], obufEpoch := s.draws, draws := s.draws + 1 }

/-- Soft reset (70_reset_and_hazards.md R902): the registers; IBUF stays; OBUF is lost if a command was in flight. -/
def State.softReset (s : State) : State :=
  if s.busy then s.resetRegisters.obufLost else s.resetRegisters

/-- Hardware reset (70_reset_and_hazards.md R900): the registers, and every byte of both buffers unspecified. -/
def State.hardwareReset (s : State) : State := { s.resetRegisters.obufLost with ibuf := [], ibufEpoch := s.draws }

end Sys2Proof.Machine
end

