-- ==== Sys2Proof/Machine/Operands.lean ====
section
/-! DEFINITION. The operands of the commands: IBUF[0 : IN_LEN) with its length check, the fields of FRAME_HDR, the
lanes of the mask key. -/

namespace Sys2Proof.Machine

/-- The check every command but NOP begins with, and the input it then reads: BAD_LENGTH when `IN_LEN > BUF_BYTES`
(60_exceptions.md R804), else IBUF[0 : IN_LEN). -/
def withInput (s : State) (k : List Byte → Host.Outcome State Fault Refusal) : Host.Outcome State Fault Refusal :=
  if s.cfg.bufBytes < s.inLen.toNat then raiseError .badLength s else k (s.memRead 0 s.inLen.toNat)

/-- FRAME_HDR[7:0], laid out as wire byte 0 (10_state.md R112, 30_encoding.md R311). -/
def hdrByte0 (h : BitVec 9) : Byte := h.extractLsb' 0 8

/-- FRAME_HDR.OPCODE, bits 3:0 (10_state.md R112). -/
def hdrOpcode (h : BitVec 9) : BitVec 4 := h.extractLsb' 0 4

/-- FRAME_HDR.RSV3, bit 4. -/
def hdrRsv3 (h : BitVec 9) : Bool := h.getLsbD 4

/-- FRAME_HDR.RSV2, bit 5. -/
def hdrRsv2 (h : BitVec 9) : Bool := h.getLsbD 5

/-- FRAME_HDR.RSV1, bit 6. -/
def hdrRsv1 (h : BitVec 9) : Bool := h.getLsbD 6

/-- FRAME_HDR.FIN, bit 7. -/
def hdrFin (h : BitVec 9) : Bool := h.getLsbD 7

/-- FRAME_HDR.MASKED, bit 8. -/
def hdrMasked (h : BitVec 9) : Bool := h.getLsbD 8

/-- `masked << 8 | b0` (42_frame_codec.md R610). -/
def mkHdr (masked : Bool) (b0 : Byte) : BitVec 9 := (BitVec.ofBool masked) ++ b0

/-- `mbyte(key, k) = (key >> (24 - 8*k)) & 0xFF`: mask byte k is MASK_KEY[31-8k : 24-8k] (10_state.md R115,
30_encoding.md R318). -/
def maskByte (key : Word) (k : Nat) : Byte := key.extractLsb' (24 - 8 * k) 8

/-- The masking rule: byte i XOR mask byte `i mod 4` (30_encoding.md R318). -/
def xorMask (key : Word) (s : List Byte) : List Byte := s.mapIdx fun i b => b ^^^ maskByte key (i % 4)

end Sys2Proof.Machine
end

