-- ==== Sys2Proof/Machine/Bus.lean ====
section
/-! DEFINITION. The host's accesses to the aperture: address map, access checks, register and buffer reads and writes
(10_state.md section 1, spec/20_memory.md, 60_exceptions.md R830). -/

namespace Sys2Proof.Machine

/-- The registers of 10_state.md R100. -/
inductive Reg where
  | ctrl
  | status
  | cmd
  | inLen
  | outLen
  | frameHdr
  | payloadLen
  | maskKey
  | wireLen
  | digest0
  | digest1
  | digest2
  | digest3
  | digest4
  | bufSize
deriving DecidableEq, Repr

/-- A register's offset in the aperture (R100). -/
def Reg.offset : Reg → Nat
  | .ctrl => 0x00
  | .status => 0x04
  | .cmd => 0x08
  | .inLen => 0x0C
  | .outLen => 0x10
  | .frameHdr => 0x14
  | .payloadLen => 0x18
  | .maskKey => 0x1C
  | .wireLen => 0x20
  | .digest0 => 0x24
  | .digest1 => 0x28
  | .digest2 => 0x2C
  | .digest3 => 0x30
  | .digest4 => 0x34
  | .bufSize => 0x38

/-- The registers in the order of their offsets (R100). -/
def regList : List Reg :=
  [.ctrl, .status, .cmd, .inLen, .outLen, .frameHdr, .payloadLen, .maskKey, .wireLen] ++
  [.digest0, .digest1, .digest2, .digest3, .digest4, .bufSize]

/-- The register at an offset; the other offsets of the register window are reserved (R100). -/
def regAt (off : Nat) : Option Reg := regList.find? fun r => r.offset == off

/-- The bytes an access of this width moves (20_memory.md R204). -/
def Width.bytes : Width → Nat
  | .w8 => 1
  | .w16 => 2
  | .w32 => 4

/-- What an access reaches: a register, or a buffer from a buffer offset on. -/
inductive Target where
  | reg (r : Reg)
  | buf (b : Buf) (o : Nat)
deriving DecidableEq, Repr

/-- A buffer access: naturally aligned and wholly below BUF_BYTES, else case 3 of R830 (20_memory.md R203). -/
def bufTarget (size : Nat) (b : Buf) (w : Width) (o : Nat) : Except BusError Target :=
  if o % w.bytes = 0 ∧ o + w.bytes ≤ size then .ok (.buf b o) else .error .bufferAccess

/-- What an access at an aperture offset reaches (20_memory.md R201 to R203), or which case of R830 it is. -/
def locate (size : Nat) (w : Width) (off : Nat) : Except BusError Target :=
  if off < 0x100 then
    if w = .w32 ∧ off % 4 = 0 then
      match regAt off with
      | some r => .ok (.reg r)
      | none => .error .unmapped
    else .error .registerAccess
  else if off < 0x100000 then .error .unmapped
  else if off < 0x200000 then bufTarget size .ibuf w (off - 0x100000)
  else if off < 0x400000 then bufTarget size .obuf w (off - 0x200000)
  else .error .unmapped

/-- The aperture offset of a host address, none outside the aperture (R201, 00_scope.md R11). -/
def offsetOf (p : Params) (addr : Nat) : Option Nat :=
  if p.apertureBase ≤ addr ∧ addr < p.apertureBase + apertureBytes then some (addr - p.apertureBase) else none

/-- The host address of an aperture offset (R201). -/
def addrOf (p : Params) (off : Nat) : Nat := p.apertureBase + off

/-- The word a read of a register returns (10_state.md R101 to R117). While BUSY the registers still hold their values
from before the issue (70_reset_and_hazards.md R912), since results appear only at the completion. -/
def State.readReg (s : State) : Reg → Word
  | .ctrl => flagBit s.ie 0
  | .status => s.statusWord
  | .cmd => 0
  | .inLen => s.inLen
  | .outLen => s.outLen
  | .frameHdr => s.frameHdr.setWidth 32
  | .payloadLen => s.payloadLen
  | .maskKey => s.maskKey
  | .wireLen => s.wireLen
  | .digest0 => s.digest.h0
  | .digest1 => s.digest.h1
  | .digest2 => s.digest.h2
  | .digest3 => s.digest.h3
  | .digest4 => s.digest.h4
  | .bufSize => BitVec.ofNat 32 s.cfg.bufBytes

/-- A write to a frozen input: discarded with OVR set while BUSY, else done (10_state.md R101, R107). -/
def State.frozen (s : State) (written : State) : State := if s.busy then s.overrun else written

/-- A write to CTRL: SRST = 1 performs the soft reset and the written IE is ignored, else IE takes bit 0 (10_state.md
R102, 70_reset_and_hazards.md R902). -/
def State.writeCtrl (s : State) (v : Word) : State :=
  if v.getLsbD 1 then s.softReset else { s with ie := v.getLsbD 0 }

/-- A 32-bit write to a register (10_state.md R101 to R117); a write to a read-only register is ignored (R101). -/
def State.writeReg (s : State) (r : Reg) (v : Word) : State :=
  match r with
  | .ctrl => s.writeCtrl v
  | .status => s.acknowledge v
  | .cmd => s.frozen (s.issue v)
  | .inLen => s.frozen { s with inLen := v }
  | .frameHdr => s.frozen { s with frameHdr := v.setWidth 9 }
  | .maskKey => s.frozen { s with maskKey := v }
  | .outLen => s
  | .payloadLen => s
  | .wireLen => s
  | .digest0 => s
  | .digest1 => s
  | .digest2 => s
  | .digest3 => s
  | .digest4 => s
  | .bufSize => s

/-- One byte of a buffer as a host read finds it: IBUF's byte, in the BUSY window too; OBUF's byte, or a freshly drawn
value while a command is in flight (70_reset_and_hazards.md R912, log entry 5). -/
def State.hostByte (s : State) (b : Buf) (o : Nat) : Byte :=
  match b with
  | .ibuf => s.ibufCell o
  | .obuf => if s.busy then Config.freeByte .obuf s.draws o else s.obufByte o

/-- The data word of a buffer read, little-endian lanes (20_memory.md R204). -/
def State.bufWord (s : State) (b : Buf) (w : Width) (o : Nat) : Word :=
  fromLanes ((List.range w.bytes).map fun k => s.hostByte b (o + k))

/-- The model's draw counter after a host read of a buffer: only an OBUF read in the BUSY window has drawn (U3). -/
def State.drawsAfterRead (s : State) (b : Buf) : Nat :=
  match b with
  | .ibuf => s.draws
  | .obuf => if s.busy then s.draws + 1 else s.draws

/-- A host read: the data goes to the host, and nothing of the block changes (20_memory.md R208). -/
def busRead (w : Width) (off : Nat) (s : State) : Host.Outcome State Fault Refusal :=
  match locate s.cfg.bufBytes w off with
  | .error e => .fault (.busError e)
  | .ok (.reg r) => .next { s with resp := .data (s.readReg r) }
  | .ok (.buf b o) => .next { s with resp := .data (s.bufWord b w o), draws := s.drawsAfterRead b }

/-- A host write (20_memory.md R202 to R204): a register; IBUF, frozen while BUSY; never OBUF. -/
def busWrite (w : Width) (off : Nat) (v : Word) (s : State) : Host.Outcome State Fault Refusal :=
  match locate s.cfg.bufBytes w off with
  | .error e => .fault (.busError e)
  | .ok (.reg r) => .next { s.writeReg r v with resp := .written }
  | .ok (.buf .ibuf o) =>
    .next { s.frozen { s with ibuf := s.ibuf.write o (laneBytes w.bytes v) } with resp := .written }
  | .ok (.buf .obuf _) => .fault (.busError .obufWrite)

end Sys2Proof.Machine
end

