-- ==== Sys2Proof/Machine/Control.lean ====
section
/-! DEFINITION. NOP, and what a command word that is no command does (spec/43_handshake_control.md section 2). -/

namespace Sys2Proof.Machine

/-- NOP (R710): completes; OUT_LEN, OBUF and every other register stay, IN_LEN is not checked. -/
def execNop (s : State) : Host.Outcome State Fault Refusal := complete s false

/-- The completion of a word that is none of the eight commands (R712, R805): BAD_COMMAND, nothing read. -/
def execBadWord (s : State) : Host.Outcome State Fault Refusal := raiseError .badCommand s

end Sys2Proof.Machine
end

