-- ==== Sys2Proof/Machine/Frame.lean ====
section
/-! DEFINITION. The frame codec: the wire format (30_encoding.md section 2) and the commands FDEC, FENC and XMASK
(spec/42_frame_codec.md). -/

namespace Sys2Proof.Machine

/-- One decoded frame, the source's `Frame` record (10_state.md R125): its header as FRAME_HDR holds it, its mask key
(0 when unmasked, R613), its unmasked payload, and its length on the wire. -/
structure WireFrame where
  hdr : BitVec 9
  key : Word
  payload : List Byte
  wireLen : Nat
deriving DecidableEq, Repr

/-- `ext(L)`, the number of extended-length bytes (30_encoding.md R313). -/
def extLen (ind : Nat) : Nat := if ind < 126 then 0 else if ind = 126 then 2 else 8

/-- `hdr_len = 2 + ext(L) + (4 if masked else 0)` (30_encoding.md R313). -/
def hdrLen (ind : Nat) (masked : Bool) : Nat := 2 + extLen ind + (if masked then 4 else 0)

/-- The payload length, from the length indicator or the big-endian extended length (30_encoding.md R314). -/
def payloadLength (f : List Byte) (ind : Nat) : Nat :=
  if ind < 126 then ind else fromBe (slice f 2 (extLen ind))

/-- The frame that begins with bytes b0, b1 of the sequence `f`, none where `f` is shorter than the header, or than
header and payload (R610 to R614). Lengths are natural numbers and nothing wraps (R643). -/
def frameAt (f : List Byte) (b0 b1 : Byte) : Option WireFrame :=
  let masked := b1.getLsbD 7
  let ind := (b1.extractLsb' 0 7).toNat
  let hl := hdrLen ind masked
  let plen := payloadLength f ind
  if f.length < hl then none
  else if f.length < hl + plen then none
  else
    let key : Word := if masked then BitVec.ofNat 32 (fromBe (slice f (2 + extLen ind) 4)) else 0
    let w := slice f hl plen
    some
      { hdr := mkHdr masked b0
        key := key
        payload := if masked then xorMask key w else w
        wireLen := hl + plen }

/-- Decode the frame at the start of a byte sequence, none for TRUNCATED_FRAME at any of the three checks (R610, R611,
R612). -/
def decodeFrame (f : List Byte) : Option WireFrame :=
  match f with
  | b0 :: b1 :: _ => frameAt f b0 b1
  | _ => none

/-- FDEC (R610): BAD_LENGTH, TRUNCATED_FRAME, else the header to registers, the payload to OBUF, and UOPC for a
reserved opcode (R616). -/
def execFdec (s : State) : Host.Outcome State Fault Refusal :=
  withInput s fun f =>
    match decodeFrame f with
    | none => raiseError .truncatedFrame s
    | some fr =>
      complete
        ({ s with
            frameHdr := fr.hdr
            payloadLen := BitVec.ofNat 32 fr.payload.length
            maskKey := fr.key
            wireLen := BitVec.ofNat 32 fr.wireLen }.deliver fr.payload)
        (reservedOpcode (hdrOpcode fr.hdr))

/-- The length indicator the encoder writes for n payload bytes (30_encoding.md R315). -/
def lengthIndicator (n : Nat) : Nat := if n < 126 then n else if n ≤ 65535 then 126 else 127

/-- The extended-length bytes the encoder writes: none, `be_2(n)` or `be_8(n)` (30_encoding.md R315, R316). -/
def extBytes (n : Nat) : List Byte :=
  if n < 126 then [] else if n ≤ 65535 then beBytes 2 n else beBytes 8 n

/-- The frame's header: byte 0, byte 1, extended length, mask key when masked (R620, R621). -/
def encodeHeader (h : BitVec 9) (key : Word) (n : Nat) : List Byte :=
  [hdrByte0 h, BitVec.ofBool (hdrMasked h) ++ BitVec.ofNat 7 (lengthIndicator n)] ++ extBytes n
    ++ (if hdrMasked h then beBytes 4 key.toNat else [])

/-- The whole frame on the wire (R620, R623). -/
def encodeFrame (h : BitVec 9) (key : Word) (p : List Byte) : List Byte :=
  encodeHeader h key p.length ++ (if hdrMasked h then xorMask key p else p)

/-- FENC (R620): BAD_LENGTH, CAPACITY when the frame does not fit in OBUF (R622), else the frame and its lengths. -/
def execFenc (s : State) : Host.Outcome State Fault Refusal :=
  withInput s fun p =>
    let wl := (encodeHeader s.frameHdr s.maskKey p.length).length + p.length
    if s.cfg.bufBytes < wl then raiseError .capacity s
    else
      complete
        ({ s with payloadLen := BitVec.ofNat 32 p.length, wireLen := BitVec.ofNat 32 wl }.deliver
          (encodeFrame s.frameHdr s.maskKey p))
        false

/-- XMASK (R630): BAD_LENGTH, else the input XOR the cyclic key. -/
def execXmask (s : State) : Host.Outcome State Fault Refusal :=
  withInput s fun input => complete (s.deliver (xorMask s.maskKey input)) false

end Sys2Proof.Machine
end

