-- ==== Sys2Proof/Machine/Base64.lean ====
section
/-! DEFINITION. The Base64 commands B64E and B64D (spec/40_base64.md). -/

namespace Sys2Proof.Machine

/-- The padding character `=` (R401). -/
def padChar : Byte := 0x3D

/-- `enc64(v)`: the ASCII code of index v in `A`-`Z`, `a`-`z`, `0`-`9`, `+`, `/` (R401). -/
def enc64 (v : BitVec 6) : Byte :=
  let n := v.toNat
  if n < 26 then BitVec.ofNat 8 (0x41 + n)
  else if n < 52 then BitVec.ofNat 8 (0x61 + (n - 26))
  else if n < 62 then BitVec.ofNat 8 (0x30 + (n - 52))
  else if n = 62 then 0x2B
  else 0x2F

/-- `dec64[c]`, none for INVALID; a byte of 128 or more is invalid before lookup (R402). -/
def dec64 (c : Byte) : Option (BitVec 6) :=
  let n := c.toNat
  if 0x41 ≤ n ∧ n ≤ 0x5A then some (BitVec.ofNat 6 (n - 0x41))
  else if 0x61 ≤ n ∧ n ≤ 0x7A then some (BitVec.ofNat 6 (n - 0x61 + 26))
  else if 0x30 ≤ n ∧ n ≤ 0x39 then some (BitVec.ofNat 6 (n - 0x30 + 52))
  else if n = 0x2B then some 62
  else if n = 0x2F then some 63
  else none

/-- The 24-bit value of a group of three bytes, the first byte highest (R403). -/
def group24 (b0 b1 b2 : Byte) : BitVec 24 := b0 ++ b1 ++ b2

/-- Character k of a group: `enc64` of its k-th 6-bit index from the top (R403). -/
def groupChar (g : BitVec 24) (k : Nat) : Byte := enc64 (g.extractLsb' (18 - 6 * k) 6)

/-- The Base64 text of a byte sequence, three bytes to four characters, the last group padded (R400). -/
def b64Encode (s : List Byte) : List Byte :=
  match s with
  | [] => []
  | [b0] =>
    let g := group24 b0 0 0
    [groupChar g 0, groupChar g 1, padChar, padChar]
  | [b0, b1] =>
    let g := group24 b0 b1 0
    [groupChar g 0, groupChar g 1, groupChar g 2, padChar]
  | b0 :: b1 :: b2 :: rest =>
    let g := group24 b0 b1 b2
    groupChar g 0 :: groupChar g 1 :: groupChar g 2 :: groupChar g 3 :: b64Encode rest

/-- B64E (R400): BAD_LENGTH, then CAPACITY when `4*ceil_div(n,3) > BUF_BYTES`, else the text and its length. -/
def execB64e (s : State) : Host.Outcome State Fault Refusal :=
  withInput s fun input =>
    if s.cfg.bufBytes < 4 * ceilDiv input.length 3 then raiseError .capacity s
    else complete (s.deliver (b64Encode input)) false

/-- `padcount(t)` for a text whose length is a multiple of 4 (R412). -/
def padCount (t : List Byte) : Nat :=
  let n := t.length
  if n = 0 then 0
  else if t[n - 1]? = some padChar then (if t[n - 2]? = some padChar then 2 else 1)
  else 0

/-- The bytes of the whole groups of four indices (R403). -/
def joinGroups (vs : List (BitVec 6)) : List Byte :=
  match vs with
  | v0 :: v1 :: v2 :: v3 :: rest =>
    let g : BitVec 24 := v0 ++ v1 ++ v2 ++ v3
    g.extractLsb' 16 8 :: g.extractLsb' 8 8 :: g.extractLsb' 0 8 :: joinGroups rest
  | _ => []

/-- The bytes of a Base64 text whose length is a multiple of 4, none for INVALID_CHARACTER (R410): every character
before the trailing padding must be in the alphabet; the padding stands for index 0 and shortens the result. -/
def b64Decode (t : List Byte) : Option (List Byte) :=
  let p := padCount t
  let body := t.take (t.length - p)
  if body.all fun c => (dec64 c).isSome then
    let vs := (body.map fun c => (dec64 c).getD 0) ++ List.replicate p 0
    some ((joinGroups vs).take (3 * (t.length / 4) - p))
  else none

/-- B64D (R410): BAD_LENGTH when `n mod 4 != 0` (R411), INVALID_CHARACTER (R802), else the bytes and their count. -/
def execB64d (s : State) : Host.Outcome State Fault Refusal :=
  withInput s fun t =>
    if t.length % 4 = 0 then
      match b64Decode t with
      | none => raiseError .invalidCharacter s
      | some out => complete (s.deliver out) false
    else raiseError .badLength s

end Sys2Proof.Machine
end

