-- ==== Sys2Proof/Machine/Sha1.lean ====
section
/-! DEFINITION. The SHA-1 engine and the command SHA1 (spec/41_sha1.md). -/

namespace Sys2Proof.Machine

/-- `rotl32(x, n)` (00_scope.md R16). -/
def rotl32 (x : Word) (n : Nat) : Word := (x <<< n) ||| (x >>> (32 - n))

/-- The padded message P (R501): 0x80, then k zero bytes for the least k with `(n + 1 + k) mod 64 = 56`, then the bit
length as eight big-endian bytes. FIPS padding, as 90_conflicts.md C2 decides. -/
def sha1Pad (m : List Byte) : List Byte :=
  m ++ [0x80] ++ List.replicate ((119 - m.length % 64) % 64) 0 ++ beBytes 8 (8 * m.length)

/-- The initial vector (R503). -/
def sha1Iv : Digest :=
  { h0 := 0x67452301, h1 := 0xEFCDAB89, h2 := 0x98BADCFE, h3 := 0x10325476, h4 := 0xC3D2E1F0 }

/-- W[0..15] of a block, each word loaded big-endian (R502). -/
def blockWords (block : List Byte) : List Word :=
  (List.range 16).map fun t => BitVec.ofNat 32 (fromBe (slice block (4 * t) 4))

/-- One more word of the schedule, from the words so far with the latest first (R504). -/
def nextW (rev : List Word) : Word :=
  rotl32 (rev.getD 2 0 ^^^ rev.getD 7 0 ^^^ rev.getD 13 0 ^^^ rev.getD 15 0) 1

/-- `k` more words of the schedule, the latest first. -/
def extendW (k : Nat) (rev : List Word) : List Word :=
  match k with
  | 0 => rev
  | k + 1 => extendW k (nextW rev :: rev)

/-- The message schedule W[0..79] of a block (R502, R504). -/
def schedule (block : List Byte) : List Word := (extendW 64 (blockWords block).reverse).reverse

/-- f(t; b, c, d) (R505). -/
def roundF (t : Nat) (b c d : Word) : Word :=
  if t < 20 then (b &&& c) ||| (~~~b &&& d)
  else if t < 40 then b ^^^ c ^^^ d
  else if t < 60 then (b &&& c) ||| (b &&& d) ||| (c &&& d)
  else b ^^^ c ^^^ d

/-- K(t) (R505). -/
def roundK (t : Nat) : Word :=
  if t < 20 then 0x5A827999
  else if t < 40 then 0x6ED9EBA1
  else if t < 60 then 0x8F1BBCDC
  else 0xCA62C1D6

/-- One round t on the working registers a, b, c, d, e (R506). -/
def sha1Round (r : Digest) (t : Nat) (w : Word) : Digest :=
  { h0 := rotl32 r.h0 5 + roundF t r.h1 r.h2 r.h3 + r.h4 + roundK t + w
    h1 := r.h0
    h2 := rotl32 r.h1 30
    h3 := r.h2
    h4 := r.h3 }

/-- The rounds from t on, one for each word of the schedule (R506). -/
def sha1Rounds (t : Nat) (ws : List Word) (r : Digest) : Digest :=
  match ws with
  | [] => r
  | w :: rest => sha1Rounds (t + 1) rest (sha1Round r t w)

/-- Compression of one block and accumulation (R506, R507). -/
def sha1Block (h : Digest) (block : List Byte) : Digest :=
  let r := sha1Rounds 0 (schedule block) h
  { h0 := h.h0 + r.h0, h1 := h.h1 + r.h1, h2 := h.h2 + r.h2, h3 := h.h3 + r.h3, h4 := h.h4 + r.h4 }

/-- The 64-byte blocks of a padded message, in order (R502). -/
def sha1Blocks (p : List Byte) : List (List Byte) :=
  (List.range (p.length / 64)).map fun j => slice p (64 * j) 64

/-- `sha1_core(M)` (R501 to R507). -/
def sha1Core (m : List Byte) : Digest := (sha1Blocks (sha1Pad m)).foldl sha1Block sha1Iv

/-- The 20 digest bytes, five big-endian words (R508). -/
def digestBytes (h : Digest) : List Byte :=
  beBytes 4 h.h0.toNat ++ beBytes 4 h.h1.toNat ++ beBytes 4 h.h2.toNat ++ beBytes 4 h.h3.toNat ++ beBytes 4 h.h4.toNat

/-- SHA1 (R500): BAD_LENGTH, else DIGEST0..4, the 20 bytes in OBUF, OUT_LEN = 20. -/
def execSha1 (s : State) : Host.Outcome State Fault Refusal :=
  withInput s fun m =>
    let h := sha1Core m
    complete ({ s with digest := h }.deliver (digestBytes h)) false

end Sys2Proof.Machine
end

