-- ==== Sys2Proof/Machine/Handshake.lean ====
section
/-! DEFINITION. ACCEPT, the handshake accept value (spec/43_handshake_control.md section 1). -/

namespace Sys2Proof.Machine

/-- The 36 ASCII bytes "258EAFA5-E914-47DA-95CA-C5AB0DC85B11" (00_scope.md R14). -/
def guidBytes : List Byte :=
  [0x32, 0x35, 0x38, 0x45, 0x41, 0x46, 0x41, 0x35, 0x2D, 0x45, 0x39, 0x31, 0x34, 0x2D, 0x34, 0x37, 0x44, 0x41] ++
  [0x2D, 0x39, 0x35, 0x43, 0x41, 0x2D, 0x43, 0x35, 0x41, 0x42, 0x30, 0x44, 0x43, 0x38, 0x35, 0x42, 0x31, 0x31]

/-- ACCEPT (R700): BAD_LENGTH, else `Base64(SHA1(key ++ GUID))` in OBUF and the digest in DIGEST0..4. -/
def execAccept (s : State) : Host.Outcome State Fault Refusal :=
  withInput s fun key =>
    let h := sha1Core (key ++ guidBytes)
    complete ({ s with digest := h }.deliver (b64Encode (digestBytes h))) false

end Sys2Proof.Machine
end

