-- ==== Sys2Proof/Machine/Dispatch.lean ====
section
/-! DEFINITION. The completion of a command, arm by arm (30_encoding.md R301, R304). -/

namespace Sys2Proof.Machine

def exec (i : Instr) (s : State) : Host.Outcome State Fault Refusal :=
  match i with
  | .nop => Sys2Proof.Machine.execNop s
  | .b64e => Sys2Proof.Machine.execB64e s
  | .b64d => Sys2Proof.Machine.execB64d s
  | .sha1 => Sys2Proof.Machine.execSha1 s
  | .fdec => Sys2Proof.Machine.execFdec s
  | .fenc => Sys2Proof.Machine.execFenc s
  | .xmask => Sys2Proof.Machine.execXmask s
  | .accept => Sys2Proof.Machine.execAccept s

end Sys2Proof.Machine
end

