-- ==== Sys2Proof/Machine/Agents.lean ====
section
/-! DEFINITION. The two agents (00_scope.md R22): the host's next operation, the block's completion, and which of them
moves. -/

namespace Sys2Proof.Machine

/-- A host access by host address: one outside the aperture does not reach the block (R201, log entry 9). -/
def atAddress (s : State) (addr : Nat) (access : Nat → State → Host.Outcome State Fault Refusal) :
    Host.Outcome State Fault Refusal :=
  match offsetOf s.cfg addr with
  | none => .refused (.outsideAperture addr)
  | some off => access off s

/-- One poll of `WAIT` (30_encoding.md R331): a read of STATUS, made again while it shows BUSY. -/
def pollStatus (rest : List HostOp) (s : State) : Host.Outcome State Fault Refusal :=
  .next { s with host := (if s.busy then .wait :: rest else rest), resp := .data s.statusWord }

/-- The host's turn: its next operation, in program order (20_memory.md R212); nothing when it has none (R853). -/
def hostTurn (s : State) : Host.Outcome State Fault Refusal :=
  match s.host with
  | [] => .next s
  | .read w addr :: rest => atAddress { s with host := rest } addr (busRead w)
  | .write w addr v :: rest => atAddress { s with host := rest } addr fun off => busWrite w off v
  | .wait :: rest => pollStatus rest s
  | .hardReset :: rest => .next { s.hardwareReset with host := rest }

/-- The completion of a latched command word: the command it selects, or BAD_COMMAND (30_encoding.md R302, R304,
R305). -/
def runWord (w : Word) (s : State) : Host.Outcome State Fault Refusal :=
  match decode w with
  | .ok i => exec i s
  | .error _ => execBadWord s

/-- The block's turn: the completion of the command in flight; no step is enabled without one (30_encoding.md R304). -/
def blockTurn (s : State) : Host.Outcome State Fault Refusal :=
  match s.inflight with
  | none => .next s
  | some w => runWord w s

/-- Which agent moves: the schedule says, and after its end the block while BUSY, else the host. So a command in flight
completes (70_reset_and_hazards.md R920, log entry 7). -/
def State.mover (s : State) : Agent :=
  match s.sched with
  | a :: _ => a
  | [] => if s.busy then .block else .host

/-- One step of the mover, its turn taken off the schedule. -/
def takeTurn (s : State) : Host.Outcome State Fault Refusal :=
  match s.mover with
  | .host => hostTurn { s with sched := s.sched.tail }
  | .block => blockTurn { s with sched := s.sched.tail }

/-- The schedule under which the block moves next; the rest of it stays. -/
def blockFirst (sched : List Agent) : List Agent :=
  match sched with
  | .host :: _ => .block :: sched
  | _ => sched

end Sys2Proof.Machine
end

