-- ==== Sys2Proof/Machine/Step.lean ====
section
/-! DEFINITION. One step of the machine, and the word a step runs. -/

namespace Sys2Proof.Machine

/-- One step: one host operation or one completion (00_scope.md R22, 20_memory.md R207, R212). -/
def step (s : State) : Host.Outcome State Fault Refusal := takeTurn s

/-- The command word `w` issued (30_encoding.md R303), with the block to move next: the block fetches no instructions
(20_memory.md R216), so "where step fetches" is the latch of the in-flight command (log entry 13). -/
def State.withFetchWord (s : State) (nbits w : Nat) : State :=
  { s.issue (BitVec.ofNat 32 (w % 2 ^ nbits)) with sched := blockFirst s.sched }

end Sys2Proof.Machine
end

