-- ==== Sys2Proof/Machine/HostProgram.lean ====
section
/-! DEFINITION. The host's side, as functions no step of the block reads: the host-program syntax (30_encoding.md
section 3) expanded to host operations, and the host engine contract (43_handshake_control.md section 3). The host's own
computing (its branches, the data it moves from a read to a write) is not the block's and stands as arguments. -/

namespace Sys2Proof.Machine

/-! ### Host-program syntax (R330, R331) -/

/-- `WR REG, v`. -/
def wrReg (p : Params) (r : Reg) (v : Word) : HostOp := .write .w32 (addrOf p r.offset) v

/-- `RD REG`. -/
def rdReg (p : Params) (r : Reg) : HostOp := .read .w32 (addrOf p r.offset)

/-- The aperture offset of `IB+o` and `OB+o` (R330, 20_memory.md R201). -/
def bufOffset (b : Buf) (o : Nat) : Nat :=
  match b with
  | .ibuf => 0x100000 + o
  | .obuf => 0x200000 + o

/-- `WR8 IB+o, b`. -/
def wr8 (p : Params) (o : Nat) (b : Byte) : HostOp := .write .w8 (addrOf p (bufOffset .ibuf o)) (b.setWidth 32)

/-- `WR32 IB+o, v`. -/
def wr32 (p : Params) (o : Nat) (v : Word) : HostOp := .write .w32 (addrOf p (bufOffset .ibuf o)) v

/-- `RD8 OB+o`. -/
def rd8 (p : Params) (o : Nat) : HostOp := .read .w8 (addrOf p (bufOffset .obuf o))

/-- `RD32 OB+o`. -/
def rd32 (p : Params) (o : Nat) : HostOp := .read .w32 (addrOf p (bufOffset .obuf o))

/-- `WRB IB+o, b0 b1 ... bk`. -/
def wrb (p : Params) (o : Nat) (bs : List Byte) : List HostOp := bs.mapIdx fun i b => wr8 p (o + i) b

/-- `WRS IB+o, "text"`: WRB of the text's ASCII bytes. -/
def wrs (p : Params) (o : Nat) (text : String) : List HostOp := wrb p o (ascii text)

/-- `RDB OB+o, n`. -/
def rdb (p : Params) (o n : Nat) : List HostOp := (List.range n).map fun i => rd8 p (o + i)

/-- `RUN M`: `WR CMD, op(M)`; `WAIT`. -/
def run (p : Params) (i : Instr) : List HostOp := [wrReg p .cmd (encode i), .wait]

/-- `CLRDONE`: `WR STATUS, 0x00000002`. -/
def clrDone (p : Params) : HostOp := wrReg p .status 0x00000002

/-- `HDR(fin, r1, r2, r3, opc, m)`. -/
def hdr (fin r1 r2 r3 : Bool) (opc : BitVec 4) (m : Bool) : Word :=
  flagBit m 8 ||| flagBit fin 7 ||| flagBit r1 6 ||| flagBit r2 5 ||| flagBit r3 4 ||| opc.setWidth 32

/-! ### The host engine contract (R720 to R727); R8 places it outside the block -/

/-- The host's phase of one connection (R720). -/
inductive Phase where
  | awaitingHandshake
  | open
  | closing
  | closed
deriving DecidableEq, Repr

/-- What the host does with a decoded frame in phase Open (R722 to R724). -/
inductive Reaction where
  | echo
  | close
  | nothing
deriving DecidableEq, Repr

/-- Dispatch on FRAME_HDR.OPCODE: Text is echoed, Close closes, all else is a no-op (R722, R723, R724). -/
def reactionTo (opcode : BitVec 4) : Reaction :=
  if opcode = 0x1 then .echo else if opcode = 0x8 then .close else .nothing

/-- What moves the host from phase to phase (R720). -/
inductive PhaseEvent where
  /-- A successful upgrade (R721). -/
  | upgraded
  /-- A decoded frame (R722). -/
  | frame (opcode : BitVec 4)
  /-- The Close frame is sent and the transport shut down (R725). -/
  | closeSent
deriving DecidableEq, Repr

/-- The phase a connection starts in (R720). -/
def firstPhase : Phase := .awaitingHandshake

/-- The transitions of R720; every other event leaves the phase. -/
def nextPhase (ph : Phase) (e : PhaseEvent) : Phase :=
  match ph, e with
  | .awaitingHandshake, .upgraded => .open
  | .open, .frame opcode => if reactionTo opcode = .close then .closing else .open
  | .closing, .closeSent => .closed
  | ph, _ => ph

/-- Step 3 and 4 of the handshake: the key to IBUF, ACCEPT, and the accept text read back (R721). -/
def acceptProgram (p : Params) (key : List Byte) : List HostOp :=
  wrb p 0 key ++ [wrReg p .inLen (BitVec.ofNat 32 key.length)] ++ run p .accept ++ rdb p 0 28

/-- One frame to IBUF, FDEC (R722 steps 1 and 2). -/
def decodeProgram (p : Params) (frame : List Byte) : List HostOp :=
  wrb p 0 frame ++ [wrReg p .inLen (BitVec.ofNat 32 frame.length)] ++ run p .fdec

/-- The echo of a Text payload: FIN = 1, opcode Text, unmasked, RSV 0 (R722). -/
def echoProgram (p : Params) (payload : List Byte) : List HostOp :=
  wrb p 0 payload ++
  [wrReg p .inLen (BitVec.ofNat 32 payload.length), wrReg p .frameHdr (hdr true false false false 0x1 false)] ++
  run p .fenc

/-- The text of the Close reply, after its status code (R725). -/
def closeText : String := "Close Socket!"

/-- The payload of the Close reply: status code 00 01, then the text (R725). -/
def closePayload : List Byte := [0x00, 0x01] ++ ascii closeText

/-- The Close reply: FIN = 1, opcode Close, unmasked (R725). -/
def closeProgram (p : Params) : List HostOp :=
  wrb p 0 [0x00, 0x01] ++ wrs p 2 closeText ++
  [wrReg p .inLen (BitVec.ofNat 32 closePayload.length), wrReg p .frameHdr (hdr true false false false 0x8 false)] ++
  run p .fenc

/-- The errors that end the connection's session (R727). -/
def endsSession (e : ErrCode) : Bool :=
  match e with
  | .truncatedFrame => true
  | .invalidCharacter => true
  | .capacity => true
  | .none => false
  | .badLength => false
  | .badCommand => false

end Sys2Proof.Machine
end

