-- ==== Sys2Proof/Safety.lean ====
section
/-! DEFINITION. What holds of the machine in every run: the invariant of the state, and what a safe step is. -/

namespace Sys2Proof.Machine

/-- The invariant of the machine. Each field is a fact the spec states of the state; a step keeps all of them. -/
structure State.Inv (s : State) : Prop where
  /-- The parameters are legal (00_scope.md R10, R11). -/
  cfg_legal : s.cfg.wf = true
  /-- IBUF is in canonical form and lies inside BUF_BYTES (10_state.md R118). -/
  ibuf_wf : s.ibuf.wf s.cfg.bufBytes
  /-- OBUF is in canonical form and lies inside BUF_BYTES (10_state.md R119). -/
  obuf_wf : s.obuf.wf s.cfg.bufBytes
  /-- DONE = 1 implies BUSY = 0 (10_state.md R105). -/
  done_idle : s.status.done = true → s.busy = false
  /-- ERR reads 0 in the BUSY window (10_state.md R108). -/
  busy_err : s.busy = true → s.status.err = .none
  /-- UOPC is cleared at issue (10_state.md R106). -/
  busy_uopc : s.busy = true → s.status.uopc = false
  /-- UOPC is never an error: with it, ERR is NONE (10_state.md R106). -/
  uopc_err : s.status.uopc = true → s.status.err = .none
  /-- OUT_LEN counts bytes of OBUF (10_state.md R111). -/
  outLen_le : s.outLen.toNat ≤ s.cfg.bufBytes
  /-- PAYLOAD_LEN is at most BUF_BYTES (10_state.md R114). -/
  payloadLen_le : s.payloadLen.toNat ≤ s.cfg.bufBytes
  /-- WIRE_LEN is at most BUF_BYTES (42_frame_codec.md R612, R622). -/
  wireLen_le : s.wireLen.toNat ≤ s.cfg.bufBytes
  /-- The next draw of free values is a new one (log entry 12). -/
  fresh : s.obufEpoch < s.draws ∧ s.ibufEpoch < s.draws

/-- A host operation the block answers without a bus error: an access inside the aperture that is none of the cases of
60_exceptions.md R830. -/
def HostOp.legal (cfg : Params) : HostOp → Bool
  | .read w addr =>
    match offsetOf cfg addr with
    | none => false
    | some off => (locate cfg.bufBytes w off).toOption.isSome
  | .write w addr _ =>
    match offsetOf cfg addr with
    | none => false
    | some off =>
      match locate cfg.bufBytes w off with
      | .ok (.reg _) => true
      | .ok (.buf .ibuf _) => true
      | .ok (.buf .obuf _) => false
      | .error _ => false
  | .wait => true
  | .hardReset => true

/-- A host program the block answers without a bus error. -/
def State.legalHost (s : State) : Prop := ∀ op ∈ s.host, op.legal s.cfg = true

/-- A safe step: it ends in a next state, in no fault and no refusal. -/
def State.stepSafe (s : State) : Prop := ∃ t, step s = .next t

end Sys2Proof.Machine
end

