-- ==== Sys2Proof/Certificates/Slice0/Obligations.lean ====
section
/-! DEFINITION. The statements for the provers, and the words they are said in: the spec's formulas by byte index, over
the bytes a command reads and the bytes it leaves. -/

open Sys2Proof Sys2Proof.Machine

namespace Sys2Proof.Claims

/-- IN_LEN as a number. -/
abbrev inCount (s : State) : Nat := s.inLen.toNat

/-- The input bytes IBUF[0 : IN_LEN) as the command in flight reads them. -/
def inputBytes (s : State) : List Byte := (List.range (inCount s)).map s.ibufByte

/-- STATUS after a completion (30_encoding.md R304): BUSY 0, DONE 1, ERR and UOPC as given, OVR as it was. -/
def Completed (s t : State) (err : ErrCode) (uopc : Bool) : Prop :=
  t.inflight = none ∧ t.status = { done := true, uopc := uopc, ovr := s.status.ovr, err := err }

/-- What no completion writes: CTRL, IN_LEN, IBUF, the parameters, and the host's side (10_state.md R126, R118). -/
def InputsKept (s t : State) : Prop :=
  t.cfg = s.cfg ∧ t.ie = s.ie ∧ t.inLen = s.inLen ∧ t.ibuf = s.ibuf ∧ t.host = s.host ∧ t.sched = s.sched ∧
    t.resp = s.resp ∧ t.obufEpoch = s.obufEpoch ∧ t.ibufEpoch = s.ibufEpoch

/-- FRAME_HDR and MASK_KEY stay. -/
def HeaderKept (s t : State) : Prop := t.frameHdr = s.frameHdr ∧ t.maskKey = s.maskKey

/-- PAYLOAD_LEN and WIRE_LEN stay. -/
def LengthsKept (s t : State) : Prop := t.payloadLen = s.payloadLen ∧ t.wireLen = s.wireLen

/-- OBUF reads as before from offset n on. -/
def ObufKeptFrom (n : Nat) (s t : State) : Prop := ∀ a, n ≤ a → t.obufByte a = s.obufByte a

/-- The state a precise command error leaves (60_exceptions.md R810): STATUS, and OUT_LEN 0. -/
def failed (s : State) (err : ErrCode) : State :=
  { s with
    inflight := none
    status := { done := true, uopc := false, ovr := s.status.ovr, err := err }
    outLen := 0
    draws := s.draws + 1 }

/-- Character k of group j of the Base64 text of a byte sequence, by index (40_base64.md R400). -/
def b64Char (bs : List Byte) (j k : Nat) : Byte :=
  let r := min 3 (bs.length - 3 * j)
  let b0 : Byte := bs.getD (3 * j) 0
  let b1 : Byte := if 2 ≤ r then bs.getD (3 * j + 1) 0 else 0
  let b2 : Byte := if r = 3 then bs.getD (3 * j + 2) 0 else 0
  let g : BitVec 24 := b0 ++ b1 ++ b2
  if (r = 1 ∧ 2 ≤ k) ∨ (r = 2 ∧ k = 3) then 0x3D else enc64 (g.extractLsb' (18 - 6 * k) 6)

/-- The padding count of the text in IBUF (40_base64.md R412). -/
def padOf (s : State) : Nat :=
  let n := inCount s
  if n = 0 then 0
  else if s.ibufByte (n - 2) = 0x3D ∧ s.ibufByte (n - 1) = 0x3D then 2
  else if s.ibufByte (n - 2) ≠ 0x3D ∧ s.ibufByte (n - 1) = 0x3D then 1
  else 0

/-- Byte m of the decoding of the text in IBUF (40_base64.md R410): byte `m mod 3` of group `m div 3`, padding as 0. -/
def b64Byte (s : State) (m : Nat) : Byte :=
  let v (k : Nat) : BitVec 6 :=
    if inCount s - padOf s ≤ 4 * (m / 3) + k then 0 else (dec64 (s.ibufByte (4 * (m / 3) + k))).getD 0
  let g : BitVec 24 := v 0 ++ v 1 ++ v 2 ++ v 3
  g.extractLsb' (16 - 8 * (m % 3)) 8

/-- The number whose big-endian encoding is IBUF[o : o+n) (00_scope.md R17). -/
def ibufNumber (s : State) (o n : Nat) : Nat := (List.range n).foldl (fun acc k => acc * 256 + (s.ibufByte (o + k)).toNat) 0

/-- MASK of the frame in IBUF: byte 1, bit 7 (30_encoding.md R312). -/
def wireMasked (s : State) : Bool := (s.ibufByte 1).getLsbD 7

/-- L of the frame in IBUF: byte 1, bits 6:0 (30_encoding.md R312). -/
def wireL (s : State) : Nat := ((s.ibufByte 1).extractLsb' 0 7).toNat

/-- `ext(L)` (30_encoding.md R313). -/
def ext (l : Nat) : Nat := if l < 126 then 0 else if l = 126 then 2 else 8

/-- `hdr_len` of the frame in IBUF (30_encoding.md R313). -/
def wireHl (s : State) : Nat := 2 + ext (wireL s) + (if wireMasked s then 4 else 0)

/-- `payload_length` of the frame in IBUF (30_encoding.md R314). -/
def wirePlen (s : State) : Nat := if wireL s < 126 then wireL s else ibufNumber s 2 (ext (wireL s))

/-- The mask key of the frame in IBUF, 0 when unmasked (42_frame_codec.md R613). -/
def wireKey (s : State) : Word := if wireMasked s then BitVec.ofNat 32 (ibufNumber s (2 + ext (wireL s)) 4) else 0

/-- What byte i of a payload is XORed with: key byte `i mod 4`, MASK_KEY[31:24] the first, when masked
(30_encoding.md R318). -/
def maskOf (masked : Bool) (key : Word) (i : Nat) : Byte := if masked then key.extractLsb' (24 - 8 * (i % 4)) 8 else 0

/-- IBUF holds a whole frame (42_frame_codec.md R611, R612). -/
def WholeFrame (s : State) : Prop := inCount s ≤ s.cfg.bufBytes ∧ 2 ≤ inCount s ∧ wireHl s + wirePlen s ≤ inCount s

/-- MASKED of FRAME_HDR, bit 8 (10_state.md R112). -/
def hdrM (s : State) : Bool := s.frameHdr.getLsbD 8

/-- The extended-length bytes FENC writes for n payload bytes (30_encoding.md R315). -/
def extFor (n : Nat) : Nat := if n < 126 then 0 else if n ≤ 65535 then 2 else 8

/-- The wire length of the frame FENC builds: `2 + ext + 4*MASKED + n` (42_frame_codec.md R622). -/
def fencLen (s : State) : Nat := 2 + extFor (inCount s) + (if hdrM s then 4 else 0) + inCount s

/-- Byte i of a digest: five big-endian words (41_sha1.md R508). -/
def digestByte (d : Digest) (i : Nat) : Byte :=
  ([d.h0, d.h1, d.h2, d.h3, d.h4].getD (i / 4) 0).extractLsb' (24 - 8 * (i % 4)) 8

/-- f(t; b, c, d), by the group of twenty rounds that t is in (41_sha1.md R505). -/
def fTable (t : Nat) (b c d : Word) : Word :=
  [(b &&& c) ||| (~~~b &&& d), b ^^^ c ^^^ d, (b &&& c) ||| (b &&& d) ||| (c &&& d), b ^^^ c ^^^ d].getD (t / 20) 0

/-- K(t), by the same group (41_sha1.md R505). -/
def kTable (t : Nat) : Word := [0x5A827999, 0x6ED9EBA1, 0x8F1BBCDC, 0xCA62C1D6].getD (t / 20) 0

/-- A read the block answers (60_exceptions.md R830, 20_memory.md R201 to R203). -/
def readAnswered (size : Nat) (w : Width) (off : Nat) : Prop :=
  (off < 0x3C ∧ w = .w32 ∧ off % 4 = 0) ∨
  (0x100000 ≤ off ∧ off + w.bytes ≤ 0x100000 + size ∧ off % w.bytes = 0) ∨
  (0x200000 ≤ off ∧ off + w.bytes ≤ 0x200000 + size ∧ off % w.bytes = 0)

/-- A write the block answers: the same less the OBUF window. -/
def writeAnswered (size : Nat) (w : Width) (off : Nat) : Prop :=
  (off < 0x3C ∧ w = .w32 ∧ off % 4 = 0) ∨
  (0x100000 ≤ off ∧ off + w.bytes ≤ 0x100000 + size ∧ off % w.bytes = 0)

/-- The coming step is the host's write of v to the register at an offset. -/
def HostWrites (s : State) (off : Nat) (v : Word) : Prop :=
  s.mover = .host ∧ ∃ addr rest, s.host = .write .w32 addr v :: rest ∧ offsetOf s.cfg addr = some off

/-- The coming step is the reset input. -/
def HardResets (s : State) : Prop := s.mover = .host ∧ ∃ rest, s.host = .hardReset :: rest

/-- The coming step is a reset, of either kind. -/
def Resets (s : State) : Prop := HardResets s ∨ ∃ v, v.getLsbD 1 = true ∧ HostWrites s 0x00 v

/-- The error codes a command word can end with (60_exceptions.md R801, "raised by"). -/
def errorsOf (w : Word) : List ErrCode :=
  match decode w with
  | .ok .nop => [.none]
  | .ok .b64e => [.none, .badLength, .capacity]
  | .ok .b64d => [.none, .badLength, .invalidCharacter]
  | .ok .sha1 => [.none, .badLength]
  | .ok .fdec => [.none, .badLength, .truncatedFrame]
  | .ok .fenc => [.none, .badLength, .capacity]
  | .ok .xmask => [.none, .badLength]
  | .ok .accept => [.none, .badLength]
  | .error _ => [.badCommand]

end Sys2Proof.Claims

open Sys2Proof.Claims

/-! ### Command words -/

/-- 30_encoding.md R302: the eight words, and no other, select a command; a word selects one exactly when OP ≤ 7 and
MBZ = 0. -/
def Obligations.CommandWordsSelectTheEightCommands : Prop :=
  ∀ w : Word,
    (decode w = .ok .nop ↔ w = 0x00000000) ∧ (decode w = .ok .b64e ↔ w = 0x00000001) ∧
    (decode w = .ok .b64d ↔ w = 0x00000002) ∧ (decode w = .ok .sha1 ↔ w = 0x00000003) ∧
    (decode w = .ok .fdec ↔ w = 0x00000004) ∧ (decode w = .ok .fenc ↔ w = 0x00000005) ∧
    (decode w = .ok .xmask ↔ w = 0x00000006) ∧ (decode w = .ok .accept ↔ w = 0x00000007) ∧
    ((∃ i, decode w = .ok i) ↔ (w.extractLsb' 0 4).toNat ≤ 7 ∧ w.extractLsb' 4 28 = 0)

/-- 30_encoding.md R301, R305: words written out from the table, and words that are no command. -/
def Obligations.SampleCommandWordsDecode : Prop :=
  decode 0b00000000000000000000000000000000 = .ok .nop ∧ decode 0b00000000000000000000000000000010 = .ok .b64d ∧
  decode 0b00000000000000000000000000000011 = .ok .sha1 ∧ decode 0b00000000000000000000000000000101 = .ok .fenc ∧
  decode 0b00000000000000000000000000000111 = .ok .accept ∧ decode 0x00000008 = .error .reservedOpcode ∧
  decode 0x00000011 = .error .nonzeroHighBits ∧ decode 0xFFFFFFFF = .error .nonzeroHighBits

/-! ### Steps -/

/-- 30_encoding.md R304: the block's step is the completion of the latched word: the command it selects, or BAD_COMMAND.
The step takes its turn off the schedule first (log entry 7). -/
def Obligations.BlockStepRunsTheLatchedCommand : Prop :=
  ∀ (s : State) (w : Word), s.mover = .block → s.inflight = some w →
    (∀ i, decode w = .ok i → step s = exec i { s with sched := s.sched.tail }) ∧
    (∀ e, decode w = .error e → step s = .next (failed { s with sched := s.sched.tail } .badCommand))

/-- Log entry 13, the model's choice: a word placed by withFetchWord is issued and is what the next step runs. -/
def Obligations.PlacedWordRunsNext : Prop :=
  ∀ (s : State) (nbits w : Nat) (i : Instr), decodeTableWord nbits w = some i →
    step (s.withFetchWord nbits w) =
      exec i { s.issue (BitVec.ofNat 32 (w % 2 ^ nbits)) with sched := (blockFirst s.sched).tail }

/-- 20_memory.md R212: the host's step is its next operation in program order. -/
def Obligations.HostStepMakesTheNextAccess : Prop :=
  ∀ s : State, s.mover = .host →
    (s.host = [] → step s = .next { s with sched := s.sched.tail }) ∧
    (∀ w addr rest off, s.host = .read w addr :: rest → offsetOf s.cfg addr = some off →
      step s = busRead w off { s with sched := s.sched.tail, host := rest }) ∧
    (∀ w addr v rest off, s.host = .write w addr v :: rest → offsetOf s.cfg addr = some off →
      step s = busWrite w off v { s with sched := s.sched.tail, host := rest }) ∧
    (∀ rest, s.host = .wait :: rest →
      step s = .next
        { s with
          sched := s.sched.tail
          host := (if s.busy then .wait :: rest else rest)
          resp := .data s.statusWord })

/-- 30_encoding.md R303: a write to CMD while BUSY = 0 issues; while BUSY = 1 it does not. -/
def Obligations.CmdWriteIssues : Prop :=
  ∀ (s : State) (w : Word),
    (s.busy = false →
      ∃ t, busWrite .w32 0x08 w s = .next t ∧ t.busy = true ∧
        t = { s with
              inflight := some w
              status := { done := false, uopc := false, ovr := s.status.ovr, err := .none }
              resp := .written }) ∧
    (s.busy = true →
      ∃ t, busWrite .w32 0x08 w s = .next t ∧
        t = { s with status := { s.status with ovr := true }, resp := .written })

/-- 43_handshake_control.md R712: a word with a reserved OP or non-zero high bits issues, and completes with BAD_COMMAND,
OUT_LEN 0 and nothing else. -/
def Obligations.BadWordCompletesWithBadCommand : Prop :=
  ∀ (s : State) (w : Word), 8 ≤ (w.extractLsb' 0 4).toNat ∨ w.extractLsb' 4 28 ≠ 0 →
    (s.busy = false →
      busWrite .w32 0x08 w s =
        .next
          { s with
            inflight := some w
            status := { done := false, uopc := false, ovr := s.status.ovr, err := .none }
            resp := .written }) ∧
    (s.inflight = some w → s.mover = .block →
      step s = .next (failed { s with sched := s.sched.tail } .badCommand))

/-- 30_encoding.md R304: whatever the word, the block's step clears BUSY, sets DONE and leaves OVR. -/
def Obligations.EveryCompletionSetsDone : Prop :=
  ∀ (s : State) (w : Word), s.inflight = some w → s.mover = .block →
    ∃ t, step s = .next t ∧ t.busy = false ∧ t.status.done = true ∧ t.status.ovr = s.status.ovr ∧ t.ie = s.ie ∧
      t.inLen = s.inLen ∧ t.ibuf = s.ibuf

/-- 10_state.md R107: in the BUSY window a write to CMD, IN_LEN, FRAME_HDR, MASK_KEY or IBUF is discarded and sets OVR,
and OVR stays until a STATUS write with bit 3 = 1 or a reset. -/
def Obligations.FrozenWriteSetsStickyOverrun : Prop :=
  (∀ (s : State) (v : Word), s.busy = true →
    (∀ off ∈ [0x08, 0x0C, 0x14, 0x1C],
      busWrite .w32 off v s = .next { s with status := { s.status with ovr := true }, resp := .written }) ∧
    ∀ w o, s.cfg.wf = true → o % w.bytes = 0 → o + w.bytes ≤ s.cfg.bufBytes →
      busWrite w (0x100000 + o) v s = .next { s with status := { s.status with ovr := true }, resp := .written }) ∧
  ∀ s t : State, step s = .next t → s.status.ovr = true →
    t.status.ovr = true ∨ Resets s ∨ ∃ v, v.getLsbD 3 = true ∧ HostWrites s 0x04 v

/-! ### Registers -/

/-- 10_state.md R103: the fields of the word a read of STATUS returns. -/
def Obligations.StatusWordHasTheFields : Prop :=
  ∀ s : State,
    busRead .w32 0x04 s = .next { s with resp := .data s.statusWord } ∧
    s.statusWord.getLsbD 0 = s.busy ∧ s.statusWord.getLsbD 1 = s.status.done ∧ s.statusWord.getLsbD 2 = s.status.uopc ∧
    s.statusWord.getLsbD 3 = s.status.ovr ∧ s.statusWord.extractLsb' 4 4 = 0 ∧
    s.statusWord.extractLsb' 8 4 = s.status.err.code ∧ s.statusWord.extractLsb' 12 20 = 0

/-- 10_state.md R101, R103, R105, R107: a write to STATUS clears DONE and OVR where it has a 1, and nothing else. -/
def Obligations.StatusWriteClearsDoneAndOverrun : Prop :=
  ∀ (s : State) (v : Word),
    ∃ t, busWrite .w32 0x04 v s = .next t ∧ t.statusWord = s.statusWord &&& ~~~(v &&& 0x0000000A) ∧
      t = { s with status := t.status, resp := .written }

/-- 10_state.md R102: CTRL reads IE in bit 0 and 0 elsewhere, and 0 after reset; a write with SRST = 0 takes IE from bit
0, one with SRST = 1 is the soft reset; no write to CTRL sets OVR, and it is taken while BUSY too. -/
def Obligations.CtrlWriteTakesInterruptEnable : Prop :=
  State.reset.readReg .ctrl = 0 ∧
  ∀ (s : State) (v : Word),
    busRead .w32 0x00 s = .next { s with resp := .data (if s.ie then 1 else 0) } ∧
    s.irq = (s.ie && s.status.done) ∧
    ∃ t, busWrite .w32 0x00 v s = .next t ∧
      (v.getLsbD 1 = false → t = { s with ie := v.getLsbD 0, resp := .written }) ∧
      (v.getLsbD 1 = true → t = { s.softReset with resp := .written }) ∧
      (t.status.ovr = true → s.status.ovr = true)

/-- 10_state.md R110, R112, R115: IN_LEN, FRAME_HDR and MASK_KEY read back what was written while idle, FRAME_HDR less its
reserved bits. -/
def Obligations.WrittenOperandsReadBack : Prop :=
  ∀ (s : State) (v : Word), s.busy = false →
    (∃ t, busWrite .w32 0x0C v s = .next t ∧ busRead .w32 0x0C t = .next { t with resp := .data v } ∧
      t = { s with inLen := v, resp := .written }) ∧
    (∃ t, busWrite .w32 0x14 v s = .next t ∧
      busRead .w32 0x14 t = .next { t with resp := .data (v &&& 0x000001FF) } ∧
      t = { s with frameHdr := t.frameHdr, resp := .written }) ∧
    ∃ t, busWrite .w32 0x1C v s = .next t ∧ busRead .w32 0x1C t = .next { t with resp := .data v } ∧
      t = { s with maskKey := v, resp := .written }

/-- 10_state.md R100, R101: a write to a read-only register is accepted and ignored, and does not set OVR. -/
def Obligations.ReadOnlyRegistersIgnoreWrites : Prop :=
  ∀ (s : State) (v : Word), ∀ off ∈ [0x10, 0x18, 0x20, 0x24, 0x28, 0x2C, 0x30, 0x34, 0x38],
    busWrite .w32 off v s = .next { s with resp := .written }

/-- 10_state.md R100, R109, R113: what a read of each register but STATUS and CTRL returns. -/
def Obligations.RegisterReadsFollowTheMap : Prop :=
  ∀ s : State, ∀ p ∈
      [(0x08, (0 : Word)), (0x0C, s.inLen), (0x10, s.outLen), (0x14, BitVec.ofNat 32 s.frameHdr.toNat),
        (0x18, s.payloadLen), (0x1C, s.maskKey), (0x20, s.wireLen), (0x24, s.digest.h0), (0x28, s.digest.h1),
        (0x2C, s.digest.h2), (0x30, s.digest.h3), (0x34, s.digest.h4), (0x38, BitVec.ofNat 32 s.cfg.bufBytes)],
    busRead .w32 p.1 s = .next { s with resp := .data p.2 }

/-! ### The bus -/

/-- 20_memory.md R208, 60_exceptions.md R853: a read changes nothing of the block (the response is the host's, the draw
counter the model's), and the same read again returns the same data, but for OBUF in the BUSY window (R912). -/
def Obligations.ReadsHaveNoSideEffects : Prop :=
  ∀ (w : Width) (off : Nat) (s t : State), busRead w off s = .next t →
    t = { s with resp := t.resp, draws := t.draws } ∧
    (s.busy = false ∨ off < 0x200000 → t.draws = s.draws ∧ busRead w off t = .next t)

/-- 20_memory.md R208: a second equal write to IN_LEN, FRAME_HDR, MASK_KEY or IBUF changes nothing; two equal writes to CMD
while idle before each issue the word twice. -/
def Obligations.DataWritesAreIdempotent : Prop :=
  (∀ (s t : State) (v : Word), ∀ off ∈ [0x0C, 0x14, 0x1C],
    busWrite .w32 off v s = .next t → busWrite .w32 off v t = .next t) ∧
  (∀ (s t : State) (w : Width) (o : Nat) (v : Word), busWrite w (0x100000 + o) v s = .next t →
    busWrite w (0x100000 + o) v t = .next t) ∧
  ∀ (s : State) (v : Word), s.busy = false →
    ∃ t u r, busWrite .w32 0x08 v s = .next t ∧ t.inflight = some v ∧ runWord v t = .next u ∧ u.busy = false ∧
      busWrite .w32 0x08 v u = .next r ∧ r.inflight = some v

/-- 60_exceptions.md R830, 20_memory.md R201 to R203: exactly the listed accesses are answered, and every other one is a
bus error. -/
def Obligations.BusErrorsAreExactlyTheIllegalAccesses : Prop :=
  ∀ (s : State) (w : Width) (off : Nat) (v : Word), s.cfg.wf = true →
    (readAnswered s.cfg.bufBytes w off → ∃ t, busRead w off s = .next t) ∧
    (¬ readAnswered s.cfg.bufBytes w off → ∃ e, busRead w off s = .fault (.busError e)) ∧
    (writeAnswered s.cfg.bufBytes w off → ∃ t, busWrite w off v s = .next t) ∧
    (¬ writeAnswered s.cfg.bufBytes w off → ∃ e, busWrite w off v s = .fault (.busError e))

/-- 20_memory.md R204: lane k of a buffer access is the byte at offset o + k, for reads of both buffers and writes of
IBUF; an IBUF write leaves every other byte, as the host and as a command reads it. -/
def Obligations.BufferLanesAreLittleEndian : Prop :=
  ∀ (s : State) (w : Width) (o : Nat), s.cfg.wf = true → o % w.bytes = 0 → o + w.bytes ≤ s.cfg.bufBytes →
    (∀ b : Buf, ∃ (d : Word) (n : Nat),
      busRead w (bufOffset b o) s = .next { s with resp := .data d, draws := n } ∧
      ∀ k, k < w.bytes → d.extractLsb' (8 * k) 8 = s.hostByte b (o + k)) ∧
    (s.busy = false → ∀ v : Word, ∃ t,
      busWrite w (0x100000 + o) v s = .next t ∧
      (∀ k, k < w.bytes →
        t.ibufCell (o + k) = v.extractLsb' (8 * k) 8 ∧ t.ibufByte (o + k) = v.extractLsb' (8 * k) 8) ∧
      (∀ a, a < o ∨ o + w.bytes ≤ a → t.ibufCell a = s.ibufCell a ∧ t.ibufByte a = s.ibufByte a) ∧
      t = { s with ibuf := t.ibuf, resp := .written })

/-- Log entry 11, the model's choice (00_scope.md R16 makes every widening a zero extension): the data of an 8-bit or
16-bit buffer read is zero above its width. -/
def Obligations.NarrowReadsAreZeroExtended : Prop :=
  ∀ (s : State) (w : Width) (b : Buf) (o : Nat), s.cfg.wf = true → o % w.bytes = 0 → o + w.bytes ≤ s.cfg.bufBytes →
    ∃ (t : State) (d : Word), busRead w (bufOffset b o) s = .next t ∧ t.resp = .data d ∧ d.toNat < 2 ^ (8 * w.bytes)

/-- 70_reset_and_hazards.md R912: in the BUSY window a register but STATUS reads as before the issue, STATUS shows BUSY 1,
DONE 0, ERR 0; each lane of an OBUF read is a value drawn for that read, OBUF's byte having no part in it (log entry 5, the
model's choice); an IBUF read returns IBUF. -/
def Obligations.BusyWindowReads : Prop :=
  ∀ (s t : State) (v : Word), s.busy = false → s.cfg.wf = true → busWrite .w32 0x08 v s = .next t →
    (∀ r : Reg, r ≠ .status → ∃ d, busRead .w32 r.offset s = .next { s with resp := .data d } ∧
      busRead .w32 r.offset t = .next { t with resp := .data d }) ∧
    (t.statusWord.getLsbD 0 = true ∧ t.statusWord.getLsbD 1 = false ∧ t.statusWord.extractLsb' 8 4 = 0) ∧
    ∀ (w : Width) (o : Nat), o % w.bytes = 0 → o + w.bytes ≤ t.cfg.bufBytes →
      (∃ d : Word, busRead w (0x200000 + o) t = .next { t with resp := .data d, draws := t.draws + 1 } ∧
        ∀ k, k < w.bytes → d.extractLsb' (8 * k) 8 = Config.freeByte .obuf t.draws (o + k)) ∧
      ∃ d : Word, busRead w (0x100000 + o) t = .next { t with resp := .data d } ∧
        ∀ k, k < w.bytes → d.extractLsb' (8 * k) 8 = s.ibufCell (o + k)

/-- 10_state.md R121, 20_memory.md R207: while BUSY no step of the host but a reset changes the word in flight, an input
of the command, or a result register. -/
def Obligations.BusyWindowFreezesInputsAndResults : Prop :=
  ∀ s t : State, s.busy = true → s.mover = .host → step s = .next t →
    Resets s ∨
    (t.inflight = s.inflight ∧ t.inLen = s.inLen ∧ t.frameHdr = s.frameHdr ∧ t.maskKey = s.maskKey ∧ t.ibuf = s.ibuf ∧
      t.outLen = s.outLen ∧ t.payloadLen = s.payloadLen ∧ t.wireLen = s.wireLen ∧ t.digest = s.digest ∧
      t.obuf = s.obuf ∧ t.obufEpoch = s.obufEpoch ∧ t.ibufEpoch = s.ibufEpoch ∧ t.cfg = s.cfg)

/-- Log entry 9, the model's choice: an access at a host address outside the aperture is refused by name. -/
def Obligations.AccessOutsideTheApertureIsRefused : Prop :=
  ∀ (s : State) (addr : Nat) (rest : List HostOp), s.mover = .host →
    addr < s.cfg.apertureBase ∨ s.cfg.apertureBase + 0x400000 ≤ addr →
    (∀ w, s.host = .read w addr :: rest → step s = .refused (.outsideAperture addr)) ∧
    ∀ w v, s.host = .write w addr v :: rest → step s = .refused (.outsideAperture addr)

/-! ### Reset and interrupt -/

/-- 70_reset_and_hazards.md R902: a write to CTRL with SRST = 1 resets every register, abandons the command in flight,
leaves IBUF, and leaves OBUF unless a command was in flight; SRST reads as 0. Nothing but a completion or a reset, soft or
hardware (R900), ends the command in flight. -/
def Obligations.SoftResetAbandonsTheCommand : Prop :=
  (∀ (s : State) (v : Word), v.getLsbD 1 = true →
    ∃ t, busWrite .w32 0x00 v s = .next t ∧
      t = { s with
            ie := false
            status := { done := false, uopc := false, ovr := false, err := .none }
            inLen := 0
            outLen := 0
            frameHdr := 0
            payloadLen := 0
            maskKey := 0
            wireLen := 0
            digest := { h0 := 0, h1 := 0, h2 := 0, h3 := 0, h4 := 0 }
            inflight := none
            obuf := t.obuf
            obufEpoch := t.obufEpoch
            draws := t.draws
            resp := .written } ∧
      (s.busy = false → ∀ a, t.obufByte a = s.obufByte a) ∧
      (s.busy = true → ∀ a, t.obufByte a = Config.freeByte .obuf s.draws a) ∧
      busRead .w32 0x00 t = .next { t with resp := .data 0 }) ∧
  ∀ (s t : State) (w : Word), s.inflight = some w → step s = .next t →
    t.inflight = some w ∨ s.mover = .block ∨ Resets s

/-- 70_reset_and_hazards.md R900: the reset input puts every register at its reset value, abandons the command in flight,
leaves every byte of both buffers unspecified and drops IRQ. That the reset input stands in the host's queue is the model's
choice (log entry 19). -/
def Obligations.HardwareResetClearsTheBlock : Prop :=
  ∀ s : State, HardResets s →
    ∃ t, step s = .next t ∧ t.irq = false ∧ t.inflight = none ∧ t.cfg = s.cfg ∧
      (∀ r : Reg, r ≠ .bufSize → t.readReg r = 0) ∧ t.readReg .bufSize = BitVec.ofNat 32 s.cfg.bufBytes ∧
      ∀ a, t.obufByte a = Config.freeByte .obuf s.draws a ∧ t.ibufCell a = Config.freeByte .ibuf s.draws a ∧
        t.ibufByte a = Config.freeByte .ibuf t.draws a

/-- 10_state.md R124, 70_reset_and_hazards.md R901: after reset the block is idle and every register reads 0 but
BUF_SIZE, which reads BUF_BYTES of the reference configuration. -/
def Obligations.ResetStateReadsZero : Prop :=
  State.reset.busy = false ∧ State.reset.irq = false ∧ State.reset.inflight = none ∧ State.reset.ibuf = [] ∧
  State.reset.obuf = [] ∧ State.reset.readReg .bufSize = 131072 ∧
  ∀ r ∈ regList, r ≠ .bufSize → State.reset.readReg r = 0

/-- 60_exceptions.md R841: IRQ rises only at a completion with IE = 1 or when IE is written to 1 with DONE = 1; it falls
only when DONE or IE is cleared, or at a reset. -/
def Obligations.InterruptFollowsDoneAndEnable : Prop :=
  ∀ s t : State, step s = .next t →
    (s.irq = false → t.irq = true →
      (s.mover = .block ∧ s.busy = true ∧ s.ie = true) ∨
      ∃ v, v.getLsbD 0 = true ∧ v.getLsbD 1 = false ∧ HostWrites s 0x00 v ∧ s.status.done = true) ∧
    (s.irq = true → t.irq = false →
      Resets s ∨ (∃ v, v.getLsbD 0 = false ∧ HostWrites s 0x00 v) ∨ (∃ v, v.getLsbD 1 = true ∧ HostWrites s 0x04 v) ∨
      ∃ v, HostWrites s 0x08 v)

/-! ### Runs -/

/-- Every step keeps the invariant of Safety.lean: legal parameters, buffers in canonical form inside BUF_BYTES, DONE only
while idle, ERR and UOPC clear while BUSY, UOPC never with an error, the lengths within BUF_BYTES. -/
def Obligations.StepKeepsTheInvariant : Prop := ∀ s t : State, s.Inv → step s = .next t → t.Inv

/-- The invariant holds after reset. -/
def Obligations.ResetMeetsTheInvariant : Prop := State.reset.Inv

/-- 60_exceptions.md R830, R831: a host program whose accesses are all legal never stops the machine, and stays legal. -/
def Obligations.LegalHostProgramsNeverStop : Prop :=
  ∀ s : State, s.legalHost → ∃ t, step s = .next t ∧ t.legalHost

/-- 70_reset_and_hazards.md R920: a command in flight ends, at the latest one step after the schedule is used up,
whatever a legal host does meanwhile. -/
def Obligations.CommandInFlightEnds : Prop :=
  ∀ s : State, s.legalHost → s.busy = true →
    ∃ k t, k ≤ s.sched.length + 1 ∧ Host.Core.run Sys2Proof.core k s = .next t ∧ t.busy = false

/-- 30_encoding.md R331: `RUN M` from idle, with the schedule left to fairness, is the issue, the completion of M on the
inputs as they stood, and a poll that ends the WAIT with the STATUS of the completion. -/
def Obligations.RunIssuesCompletesAndWaits : Prop :=
  ∀ (s t : State) (i : Instr) (rest : List HostOp), s.busy = false → s.sched = [] → s.host = run s.cfg i ++ rest →
    exec i
      { s with
        host := .wait :: rest
        inflight := some (encode i)
        status := { done := false, uopc := false, ovr := s.status.ovr, err := .none }
        resp := .written } = .next t →
    Host.Core.run Sys2Proof.core 3 s = .next { t with host := rest, resp := .data t.statusWord }

/-! ### Commands -/

/-- 43_handshake_control.md R710: NOP, word 0, completes; OUT_LEN, OBUF and every other register stay; IN_LEN is not
checked. -/
def Obligations.NopWritesOnlyStatus : Prop :=
  decode 0x00000000 = .ok .nop ∧ ∀ s : State,
    exec .nop s =
      .next
        { s with
          inflight := none
          status := { done := true, uopc := false, ovr := s.status.ovr, err := .none }
          draws := s.draws + 1 }

/-- 40_base64.md R400, R403, R404, R405: the text by index, its length, no byte after it, nothing else written. -/
def Obligations.B64eWritesTheText : Prop :=
  ∀ s : State, s.cfg.wf = true → inCount s ≤ s.cfg.bufBytes → 4 * ceilDiv (inCount s) 3 ≤ s.cfg.bufBytes →
    ∃ t, exec .b64e s = .next t ∧ Completed s t .none false ∧ InputsKept s t ∧ HeaderKept s t ∧ LengthsKept s t ∧
      t.digest = s.digest ∧ t.outLen.toNat = 4 * ceilDiv (inCount s) 3 ∧
      (∀ j k, j < ceilDiv (inCount s) 3 → k < 4 → t.obufByte (4 * j + k) = b64Char (inputBytes s) j k) ∧
      ObufKeptFrom (4 * ceilDiv (inCount s) 3) s t

/-- 40_base64.md R401: the alphabet, range by range, and the padding character. The index order is general knowledge the
spec supplies (log entry 18). -/
def Obligations.Base64AlphabetIsTheTable : Prop :=
  (∀ v : BitVec 6,
    (v.toNat < 26 → (enc64 v).toNat = 0x41 + v.toNat) ∧
    (26 ≤ v.toNat → v.toNat < 52 → (enc64 v).toNat = 0x61 + (v.toNat - 26)) ∧
    (52 ≤ v.toNat → v.toNat < 62 → (enc64 v).toNat = 0x30 + (v.toNat - 52)) ∧
    (v.toNat = 62 → enc64 v = 0x2B) ∧ (v.toNat = 63 → enc64 v = 0x2F) ∧ enc64 v ≠ 0x3D) ∧
  (List.range 64).map (fun v => enc64 (BitVec.ofNat 6 v)) =
    ascii "ABCDEFGHIJKLMNOPQRSTUVWXYZabcdefghijklmnopqrstuvwxyz0123456789+/"

/-- 40_base64.md R402: the decode table is the inverse of the alphabet; `=` and every byte of 128 or more are invalid. -/
def Obligations.Base64DecodeTableInvertsTheAlphabet : Prop :=
  (∀ (c : Byte) (v : BitVec 6), dec64 c = some v ↔ c = enc64 v) ∧ dec64 0x3D = none ∧
  ∀ c : Byte, 128 ≤ c.toNat → dec64 c = none

/-- 40_base64.md R410, R412, R413: with every character before the padding in the alphabet, the bytes by index, their
count, nothing else written. -/
def Obligations.B64dWritesTheBytes : Prop :=
  ∀ s : State, s.cfg.wf = true → inCount s ≤ s.cfg.bufBytes → inCount s % 4 = 0 →
    (∀ i, i < inCount s - padOf s → dec64 (s.ibufByte i) ≠ none) →
    ∃ t, exec .b64d s = .next t ∧ Completed s t .none false ∧ InputsKept s t ∧ HeaderKept s t ∧ LengthsKept s t ∧
      t.digest = s.digest ∧ t.outLen.toNat = 3 * (inCount s / 4) - padOf s ∧
      (∀ m, m < 3 * (inCount s / 4) - padOf s → t.obufByte m = b64Byte s m) ∧
      ObufKeptFrom (3 * (inCount s / 4) - padOf s) s t

/-- 60_exceptions.md R802, R810, 40_base64.md R410, R412: a character before the padding outside the alphabet ends B64D
with INVALID_CHARACTER; OBUF is left with free values below 3*(n div 4) and as it was above. -/
def Obligations.B64dReportsAnInvalidCharacter : Prop :=
  ∀ s : State, s.cfg.wf = true → inCount s ≤ s.cfg.bufBytes → inCount s % 4 = 0 →
    (∃ i, i < inCount s - padOf s ∧ dec64 (s.ibufByte i) = none) →
    ∃ t, exec .b64d s = .next t ∧ t = { failed s .invalidCharacter with obuf := t.obuf } ∧
      (∀ a, a < 3 * (inCount s / 4) → t.obufByte a = Config.freeByte .obuf s.draws a) ∧
      ObufKeptFrom (3 * (inCount s / 4)) s t

/-- 40_base64.md R420: B64D of B64E's output gives the bytes back. -/
def Obligations.Base64RoundTrip : Prop :=
  ∀ s : State, s.cfg.wf = true → inCount s ≤ s.cfg.bufBytes → 4 * ceilDiv (inCount s) 3 ≤ s.cfg.bufBytes →
    ∃ t, exec .b64e s = .next t ∧
      ∀ u : State, u.cfg = s.cfg → u.inLen = t.outLen → (∀ a, a < t.outLen.toNat → u.ibufByte a = t.obufByte a) →
        ∃ v, exec .b64d u = .next v ∧ v.status.err = .none ∧ v.outLen = s.inLen ∧
          ∀ a, a < inCount s → v.obufByte a = s.ibufByte a

/-- 41_sha1.md R500, R508: the digest of the input in DIGEST0..4 and, big-endian, in OBUF[0 : 20). -/
def Obligations.Sha1WritesTheDigest : Prop :=
  ∀ s : State, s.cfg.wf = true → inCount s ≤ s.cfg.bufBytes →
    ∃ t, exec .sha1 s = .next t ∧ Completed s t .none false ∧ InputsKept s t ∧ HeaderKept s t ∧ LengthsKept s t ∧
      t.digest = sha1Core (inputBytes s) ∧ t.outLen = 20 ∧
      (∀ a, a < 20 → t.obufByte a = digestByte (sha1Core (inputBytes s)) a) ∧ ObufKeptFrom 20 s t

/-- 41_sha1.md R501: the padding, with the least k, and `(n + 8) div 64 + 1` blocks. -/
def Obligations.Sha1PaddingIsFips : Prop :=
  ∀ m : List Byte,
    ∃ k, (m.length + 1 + k) % 64 = 56 ∧ (∀ k', k' < k → (m.length + 1 + k') % 64 ≠ 56) ∧
      sha1Pad m = m ++ [0x80] ++ List.replicate k 0x00 ++ beBytes 8 (8 * m.length) ∧
      (sha1Pad m).length = 64 * ((m.length + 8) / 64 + 1)

/-- 41_sha1.md R502, R504: the message schedule of a block: 80 words, the first sixteen the block's bytes loaded
big-endian, the others by the recurrence. The big-endian load is general knowledge the spec supplies (log entry 18). -/
def Obligations.Sha1ScheduleRecurrence : Prop :=
  ∀ block : List Byte,
    (schedule block).length = 80 ∧
    (block.length = 64 → ∀ t, t < 16 →
      (schedule block).getD t 0 =
        block.getD (4 * t) 0 ++ block.getD (4 * t + 1) 0 ++ block.getD (4 * t + 2) 0 ++ block.getD (4 * t + 3) 0) ∧
    ∀ t, 16 ≤ t → t ≤ 79 →
      (schedule block).getD t 0 =
        ((schedule block).getD (t - 3) 0 ^^^ (schedule block).getD (t - 8) 0 ^^^ (schedule block).getD (t - 14) 0 ^^^
          (schedule block).getD (t - 16) 0).rotateLeft 1

/-- 41_sha1.md R503, R505, R506, R507: sha1_core compresses the blocks of the padded message in order, from the initial
vector; r t is (a, b, c, d, e) before round t. The round functions, constants and step are general knowledge the spec
supplies (log entry 18). -/
def Obligations.Sha1CompressesBlockByBlock : Prop :=
  (∀ m : List Byte,
    sha1Core m =
      ((List.range ((sha1Pad m).length / 64)).map fun j => ((sha1Pad m).drop (64 * j)).take 64).foldl sha1Block
        { h0 := 0x67452301, h1 := 0xEFCDAB89, h2 := 0x98BADCFE, h3 := 0x10325476, h4 := 0xC3D2E1F0 }) ∧
  ∀ (h : Digest) (block : List Byte),
    ∃ r : Nat → Digest,
      r 0 = h ∧
      (∀ t, t < 80 →
        r (t + 1) =
          { h0 := (r t).h0.rotateLeft 5 + fTable t (r t).h1 (r t).h2 (r t).h3 + (r t).h4 + kTable t +
              (schedule block).getD t 0
            h1 := (r t).h0
            h2 := (r t).h1.rotateLeft 30
            h3 := (r t).h2
            h4 := (r t).h3 }) ∧
      sha1Block h block =
        { h0 := h.h0 + (r 80).h0, h1 := h.h1 + (r 80).h1, h2 := h.h2 + (r 80).h2, h3 := h.h3 + (r 80).h3,
          h4 := h.h4 + (r 80).h4 }

/-- 95_test_vectors.md V-L1-1, V-L1-2: the digests of the empty message and of "abc". -/
def Obligations.Sha1OfTheSourcesShortMessages : Prop :=
  sha1Core [] = { h0 := 0xDA39A3EE, h1 := 0x5E6B4B0D, h2 := 0x3255BFEF, h3 := 0x95601890, h4 := 0xAFD80709 } ∧
  sha1Core [0x61, 0x62, 0x63] =
    { h0 := 0xA9993E36, h1 := 0x4706816A, h2 := 0xBA3E2571, h3 := 0x7850C26C, h4 := 0x9CD0D89D }

/-- 42_frame_codec.md R610, R613, R614, R615: a whole frame in IBUF is decoded, header to registers, unmasked payload to
OBUF, bytes after the frame ignored. -/
def Obligations.FdecDecodesOneFrame : Prop :=
  ∀ s : State, s.cfg.wf = true → WholeFrame s →
    ∃ t, exec .fdec s = .next t ∧ Completed s t .none t.status.uopc ∧ InputsKept s t ∧ t.digest = s.digest ∧
      t.frameHdr = BitVec.ofBool (wireMasked s) ++ s.ibufByte 0 ∧ t.maskKey = wireKey s ∧
      t.payloadLen.toNat = wirePlen s ∧ t.wireLen.toNat = wireHl s + wirePlen s ∧ t.outLen.toNat = wirePlen s ∧
      (∀ i, i < wirePlen s →
        t.obufByte i = s.ibufByte (wireHl s + i) ^^^ maskOf (wireMasked s) (wireKey s) i) ∧
      ObufKeptFrom (wirePlen s) s t

/-- 42_frame_codec.md R616: the opcode is stored verbatim, and UOPC is 1 exactly for a reserved one; no error. -/
def Obligations.FdecFlagsReservedOpcodes : Prop :=
  ∀ s : State, s.cfg.wf = true → WholeFrame s →
    ∃ t, exec .fdec s = .next t ∧ t.status.err = .none ∧
      t.frameHdr.extractLsb' 0 4 = (s.ibufByte 0).extractLsb' 0 4 ∧
      (t.status.uopc = true ↔
        (t.frameHdr.extractLsb' 0 4).toNat ∈ [0x3, 0x4, 0x5, 0x6, 0x7, 0xB, 0xC, 0xD, 0xE, 0xF])

/-- 60_exceptions.md R806: FDEC ends with TRUNCATED_FRAME when IN_LEN is below 2, below hl, or below hl + payload_length,
and records nothing more. -/
def Obligations.FdecReportsTruncation : Prop :=
  ∀ s : State, inCount s ≤ s.cfg.bufBytes →
    inCount s < 2 ∨ inCount s < wireHl s ∨ inCount s < wireHl s + wirePlen s →
    exec .fdec s = .next (failed s .truncatedFrame)

/-- 42_frame_codec.md R620, R621, 30_encoding.md R315, R316: the frame FENC writes, byte by byte, and its lengths. -/
def Obligations.FencBuildsOneFrame : Prop :=
  ∀ s : State, s.cfg.wf = true → inCount s ≤ s.cfg.bufBytes → fencLen s ≤ s.cfg.bufBytes →
    ∃ t, exec .fenc s = .next t ∧ Completed s t .none false ∧ InputsKept s t ∧ HeaderKept s t ∧ t.digest = s.digest ∧
      t.payloadLen = s.inLen ∧ t.wireLen.toNat = fencLen s ∧ t.outLen.toNat = fencLen s ∧
      t.obufByte 0 = s.frameHdr.extractLsb' 0 8 ∧ (t.obufByte 1).getLsbD 7 = hdrM s ∧
      ((t.obufByte 1).extractLsb' 0 7).toNat =
        (if inCount s < 126 then inCount s else if inCount s ≤ 65535 then 126 else 127) ∧
      (∀ k, k < extFor (inCount s) →
        t.obufByte (2 + k) = BitVec.ofNat 8 (inCount s >>> (8 * (extFor (inCount s) - 1 - k)))) ∧
      (hdrM s = true → ∀ k, k < 4 →
        t.obufByte (2 + extFor (inCount s) + k) = s.maskKey.extractLsb' (24 - 8 * k) 8) ∧
      (∀ i, i < inCount s →
        t.obufByte (fencLen s - inCount s + i) = s.ibufByte i ^^^ maskOf (hdrM s) s.maskKey i) ∧
      ObufKeptFrom (fencLen s) s t

/-- 42_frame_codec.md R640: FDEC of FENC's output gives the frame back, in every length form, masked or not. -/
def Obligations.FrameRoundTrip : Prop :=
  ∀ s : State, s.cfg.wf = true → inCount s ≤ s.cfg.bufBytes → fencLen s ≤ s.cfg.bufBytes →
    ∃ t, exec .fenc s = .next t ∧
      ∀ u : State, u.cfg = s.cfg → u.inLen = t.outLen → (∀ a, a < t.outLen.toNat → u.ibufByte a = t.obufByte a) →
        ∃ v, exec .fdec u = .next v ∧ v.status.err = .none ∧ v.frameHdr = s.frameHdr ∧ v.payloadLen = s.inLen ∧
          v.outLen = s.inLen ∧ v.wireLen = t.wireLen ∧ v.maskKey = (if hdrM s then s.maskKey else 0) ∧
          ∀ a, a < inCount s → v.obufByte a = s.ibufByte a

/-- 42_frame_codec.md R630: XMASK, its word, its result, its one error, its frame. -/
def Obligations.XmaskAppliesTheCyclicKey : Prop :=
  decode 0x00000006 = .ok .xmask ∧ ∀ s : State, s.cfg.wf = true →
    (inCount s ≤ s.cfg.bufBytes →
      ∃ t, exec .xmask s = .next t ∧ Completed s t .none false ∧ InputsKept s t ∧ HeaderKept s t ∧ LengthsKept s t ∧
        t.digest = s.digest ∧ t.outLen = s.inLen ∧
        (∀ i, i < inCount s → t.obufByte i = s.ibufByte i ^^^ s.maskKey.extractLsb' (24 - 8 * (i % 4)) 8) ∧
        ObufKeptFrom (inCount s) s t) ∧
    (s.cfg.bufBytes < inCount s → exec .xmask s = .next (failed s .badLength))

/-- 42_frame_codec.md R641: XMASK twice with one key gives the bytes back. -/
def Obligations.MaskingIsItsOwnInverse : Prop :=
  ∀ s : State, s.cfg.wf = true → inCount s ≤ s.cfg.bufBytes →
    ∃ t, exec .xmask s = .next t ∧
      ∀ u : State, u.cfg = s.cfg → u.inLen = t.outLen → u.maskKey = s.maskKey →
        (∀ a, a < t.outLen.toNat → u.ibufByte a = t.obufByte a) →
        ∃ v, exec .xmask u = .next v ∧ v.outLen = s.inLen ∧ ∀ a, a < inCount s → v.obufByte a = s.ibufByte a

/-- 43_handshake_control.md R700, R702: the digest of key ++ GUID in DIGEST0..4, its 28-character text in OBUF. -/
def Obligations.AcceptWritesTheAcceptText : Prop :=
  ∀ s : State, s.cfg.wf = true → inCount s ≤ s.cfg.bufBytes →
    ∃ t, exec .accept s = .next t ∧ Completed s t .none false ∧ InputsKept s t ∧ HeaderKept s t ∧ LengthsKept s t ∧
      t.digest = sha1Core (inputBytes s ++ guidBytes) ∧
      guidBytes = ascii "258EAFA5-E914-47DA-95CA-C5AB0DC85B11" ∧
      t.outLen = 28 ∧
      (∀ j k, j < 7 → k < 4 → t.obufByte (4 * j + k) = b64Char ((List.range 20).map (digestByte t.digest)) j k) ∧
      t.obufByte 27 = 0x3D ∧ ObufKeptFrom 28 s t

/-! ### Errors and frames over all commands -/

/-- 60_exceptions.md R804: every command but NOP ends with BAD_LENGTH when IN_LEN > BUF_BYTES, and B64D also when IN_LEN
is no multiple of 4; nothing of IBUF has a part in it. -/
def Obligations.InputLengthIsChecked : Prop :=
  ∀ (i : Instr) (s : State),
    (i ≠ .nop ∧ s.cfg.bufBytes < inCount s) ∨ (i = .b64d ∧ inCount s % 4 ≠ 0) →
    exec i s = .next (failed s .badLength)

/-- 60_exceptions.md R803: B64E and FENC end with CAPACITY when their output does not fit in OBUF, before any byte of it
is written. -/
def Obligations.OutputsThatDoNotFitAreRefused : Prop :=
  ∀ s : State, inCount s ≤ s.cfg.bufBytes →
    (s.cfg.bufBytes < 4 * ceilDiv (inCount s) 3 → exec .b64e s = .next (failed s .capacity)) ∧
    (s.cfg.bufBytes < fencLen s → exec .fenc s = .next (failed s .capacity))

/-- 60_exceptions.md R810: what a completion with an error commits, for every command word. -/
def Obligations.CommandErrorsArePrecise : Prop :=
  ∀ (w : Word) (s t : State), runWord w s = .next t → t.status.err ≠ .none →
    t = { failed s t.status.err with obuf := t.obuf } ∧
    (t.status.err ≠ .invalidCharacter → t.obuf = s.obuf) ∧
    (t.status.err = .invalidCharacter →
      (∀ a, a < 3 * (inCount s / 4) → t.obufByte a = Config.freeByte .obuf s.draws a) ∧
      ObufKeptFrom (3 * (inCount s / 4)) s t)

/-- 60_exceptions.md R801, R807: every command word completes from every state, with one of the codes its row allows. -/
def Obligations.CompletionsEndWithTheirOwnCodes : Prop :=
  ∀ (w : Word) (s : State), ∃ t, runWord w s = .next t ∧ t.status.err ∈ errorsOf w

/-- 10_state.md R126: what a successful command leaves unchanged, by command. -/
def Obligations.CommandsWriteOnlyTheirResults : Prop :=
  ∀ (i : Instr) (s t : State), s.cfg.wf = true → exec i s = .next t → t.status.err = .none →
    InputsKept s t ∧ t.status.ovr = s.status.ovr ∧
    (i ≠ .fdec → HeaderKept s t ∧ t.status.uopc = false) ∧
    (i ≠ .fdec → i ≠ .fenc → LengthsKept s t) ∧
    (i ≠ .sha1 → i ≠ .accept → t.digest = s.digest) ∧
    (i = .nop → t.outLen = s.outLen ∧ t.obuf = s.obuf) ∧
    (i ≠ .nop → t.outLen.toNat ≤ s.cfg.bufBytes ∧ ObufKeptFrom t.outLen.toNat s t)

/-- 10_state.md R121, 20_memory.md R209: a completion's results are a function of the word in flight, IN_LEN, FRAME_HDR,
MASK_KEY and IBUF: OBUF, the result registers, STATUS and the host have no part in them. -/
def Obligations.ResultsDependOnlyOnTheFrozenInputs : Prop :=
  ∀ (w : Word) (s s' t t' : State),
    s.cfg = s'.cfg → s.inLen = s'.inLen → s.frameHdr = s'.frameHdr → s.maskKey = s'.maskKey → s.ibuf = s'.ibuf →
    s.draws = s'.draws → runWord w s = .next t → runWord w s' = .next t' →
    t.status.err = t'.status.err ∧ t.status.uopc = t'.status.uopc ∧ HeaderKept t t' ∧
    (decode w ≠ .ok .nop → t.outLen = t'.outLen ∧ ∀ a, a < t.outLen.toNat → t.obufByte a = t'.obufByte a) ∧
    (decode w = .ok .sha1 ∨ decode w = .ok .accept → t.status.err = .none → t.digest = t'.digest) ∧
    (decode w = .ok .fdec ∨ decode w = .ok .fenc → t.status.err = .none →
      t.payloadLen = t'.payloadLen ∧ t.wireLen = t'.wireLen)
end

