-- ==== Sys2Proof/Laws/State.lean ====
section
/-! SUPPORT. One lemma per field of State for each named update of Machine/Ops.lean: what the update leaves in that
field. -/

namespace Sys2Proof.Machine

variable (s : State)

/-! ### deliver -/

@[simp] theorem State.deliver_cfg (bs : List Byte) : (s.deliver bs).cfg = s.cfg := rfl
@[simp] theorem State.deliver_ie (bs : List Byte) : (s.deliver bs).ie = s.ie := rfl
@[simp] theorem State.deliver_status (bs : List Byte) : (s.deliver bs).status = s.status := rfl
@[simp] theorem State.deliver_inLen (bs : List Byte) : (s.deliver bs).inLen = s.inLen := rfl
@[simp] theorem State.deliver_outLen (bs : List Byte) : (s.deliver bs).outLen = BitVec.ofNat 32 bs.length := rfl
@[simp] theorem State.deliver_frameHdr (bs : List Byte) : (s.deliver bs).frameHdr = s.frameHdr := rfl
@[simp] theorem State.deliver_payloadLen (bs : List Byte) : (s.deliver bs).payloadLen = s.payloadLen := rfl
@[simp] theorem State.deliver_maskKey (bs : List Byte) : (s.deliver bs).maskKey = s.maskKey := rfl
@[simp] theorem State.deliver_wireLen (bs : List Byte) : (s.deliver bs).wireLen = s.wireLen := rfl
@[simp] theorem State.deliver_digest (bs : List Byte) : (s.deliver bs).digest = s.digest := rfl
@[simp] theorem State.deliver_ibuf (bs : List Byte) : (s.deliver bs).ibuf = s.ibuf := rfl
@[simp] theorem State.deliver_obuf (bs : List Byte) : (s.deliver bs).obuf = s.obuf.write 0 bs := rfl
@[simp] theorem State.deliver_inflight (bs : List Byte) : (s.deliver bs).inflight = s.inflight := rfl
@[simp] theorem State.deliver_host (bs : List Byte) : (s.deliver bs).host = s.host := rfl
@[simp] theorem State.deliver_sched (bs : List Byte) : (s.deliver bs).sched = s.sched := rfl
@[simp] theorem State.deliver_resp (bs : List Byte) : (s.deliver bs).resp = s.resp := rfl
@[simp] theorem State.deliver_draws (bs : List Byte) : (s.deliver bs).draws = s.draws := rfl
@[simp] theorem State.deliver_obufEpoch (bs : List Byte) : (s.deliver bs).obufEpoch = s.obufEpoch := rfl
@[simp] theorem State.deliver_ibufEpoch (bs : List Byte) : (s.deliver bs).ibufEpoch = s.ibufEpoch := rfl

/-! ### issue -/

@[simp] theorem State.issue_cfg (w : Word) : (s.issue w).cfg = s.cfg := rfl
@[simp] theorem State.issue_ie (w : Word) : (s.issue w).ie = s.ie := rfl
@[simp] theorem State.issue_status (w : Word) : (s.issue w).status = s.status.issued := rfl
@[simp] theorem State.issue_inLen (w : Word) : (s.issue w).inLen = s.inLen := rfl
@[simp] theorem State.issue_outLen (w : Word) : (s.issue w).outLen = s.outLen := rfl
@[simp] theorem State.issue_frameHdr (w : Word) : (s.issue w).frameHdr = s.frameHdr := rfl
@[simp] theorem State.issue_payloadLen (w : Word) : (s.issue w).payloadLen = s.payloadLen := rfl
@[simp] theorem State.issue_maskKey (w : Word) : (s.issue w).maskKey = s.maskKey := rfl
@[simp] theorem State.issue_wireLen (w : Word) : (s.issue w).wireLen = s.wireLen := rfl
@[simp] theorem State.issue_digest (w : Word) : (s.issue w).digest = s.digest := rfl
@[simp] theorem State.issue_ibuf (w : Word) : (s.issue w).ibuf = s.ibuf := rfl
@[simp] theorem State.issue_obuf (w : Word) : (s.issue w).obuf = s.obuf := rfl
@[simp] theorem State.issue_inflight (w : Word) : (s.issue w).inflight = some w := rfl
@[simp] theorem State.issue_host (w : Word) : (s.issue w).host = s.host := rfl
@[simp] theorem State.issue_sched (w : Word) : (s.issue w).sched = s.sched := rfl
@[simp] theorem State.issue_resp (w : Word) : (s.issue w).resp = s.resp := rfl
@[simp] theorem State.issue_draws (w : Word) : (s.issue w).draws = s.draws := rfl
@[simp] theorem State.issue_obufEpoch (w : Word) : (s.issue w).obufEpoch = s.obufEpoch := rfl
@[simp] theorem State.issue_ibufEpoch (w : Word) : (s.issue w).ibufEpoch = s.ibufEpoch := rfl

/-! ### finish -/

@[simp] theorem State.finish_cfg (e : ErrCode) (u : Bool) : (s.finish e u).cfg = s.cfg := rfl
@[simp] theorem State.finish_ie (e : ErrCode) (u : Bool) : (s.finish e u).ie = s.ie := rfl
@[simp] theorem State.finish_status (e : ErrCode) (u : Bool) : (s.finish e u).status = s.status.completed e u := rfl
@[simp] theorem State.finish_inLen (e : ErrCode) (u : Bool) : (s.finish e u).inLen = s.inLen := rfl
@[simp] theorem State.finish_outLen (e : ErrCode) (u : Bool) : (s.finish e u).outLen = s.outLen := rfl
@[simp] theorem State.finish_frameHdr (e : ErrCode) (u : Bool) : (s.finish e u).frameHdr = s.frameHdr := rfl
@[simp] theorem State.finish_payloadLen (e : ErrCode) (u : Bool) : (s.finish e u).payloadLen = s.payloadLen := rfl
@[simp] theorem State.finish_maskKey (e : ErrCode) (u : Bool) : (s.finish e u).maskKey = s.maskKey := rfl
@[simp] theorem State.finish_wireLen (e : ErrCode) (u : Bool) : (s.finish e u).wireLen = s.wireLen := rfl
@[simp] theorem State.finish_digest (e : ErrCode) (u : Bool) : (s.finish e u).digest = s.digest := rfl
@[simp] theorem State.finish_ibuf (e : ErrCode) (u : Bool) : (s.finish e u).ibuf = s.ibuf := rfl
@[simp] theorem State.finish_obuf (e : ErrCode) (u : Bool) : (s.finish e u).obuf = s.obuf := rfl
@[simp] theorem State.finish_inflight (e : ErrCode) (u : Bool) : (s.finish e u).inflight = none := rfl
@[simp] theorem State.finish_host (e : ErrCode) (u : Bool) : (s.finish e u).host = s.host := rfl
@[simp] theorem State.finish_sched (e : ErrCode) (u : Bool) : (s.finish e u).sched = s.sched := rfl
@[simp] theorem State.finish_resp (e : ErrCode) (u : Bool) : (s.finish e u).resp = s.resp := rfl
@[simp] theorem State.finish_draws (e : ErrCode) (u : Bool) : (s.finish e u).draws = s.draws + 1 := rfl
@[simp] theorem State.finish_obufEpoch (e : ErrCode) (u : Bool) : (s.finish e u).obufEpoch = s.obufEpoch := rfl
@[simp] theorem State.finish_ibufEpoch (e : ErrCode) (u : Bool) : (s.finish e u).ibufEpoch = s.ibufEpoch := rfl

/-! ### acknowledge -/

@[simp] theorem State.acknowledge_cfg (v : Word) : (s.acknowledge v).cfg = s.cfg := rfl
@[simp] theorem State.acknowledge_ie (v : Word) : (s.acknowledge v).ie = s.ie := rfl
@[simp] theorem State.acknowledge_status (v : Word) : (s.acknowledge v).status = s.status.w1c v := rfl
@[simp] theorem State.acknowledge_inLen (v : Word) : (s.acknowledge v).inLen = s.inLen := rfl
@[simp] theorem State.acknowledge_outLen (v : Word) : (s.acknowledge v).outLen = s.outLen := rfl
@[simp] theorem State.acknowledge_frameHdr (v : Word) : (s.acknowledge v).frameHdr = s.frameHdr := rfl
@[simp] theorem State.acknowledge_payloadLen (v : Word) : (s.acknowledge v).payloadLen = s.payloadLen := rfl
@[simp] theorem State.acknowledge_maskKey (v : Word) : (s.acknowledge v).maskKey = s.maskKey := rfl
@[simp] theorem State.acknowledge_wireLen (v : Word) : (s.acknowledge v).wireLen = s.wireLen := rfl
@[simp] theorem State.acknowledge_digest (v : Word) : (s.acknowledge v).digest = s.digest := rfl
@[simp] theorem State.acknowledge_ibuf (v : Word) : (s.acknowledge v).ibuf = s.ibuf := rfl
@[simp] theorem State.acknowledge_obuf (v : Word) : (s.acknowledge v).obuf = s.obuf := rfl
@[simp] theorem State.acknowledge_inflight (v : Word) : (s.acknowledge v).inflight = s.inflight := rfl
@[simp] theorem State.acknowledge_host (v : Word) : (s.acknowledge v).host = s.host := rfl
@[simp] theorem State.acknowledge_sched (v : Word) : (s.acknowledge v).sched = s.sched := rfl
@[simp] theorem State.acknowledge_resp (v : Word) : (s.acknowledge v).resp = s.resp := rfl
@[simp] theorem State.acknowledge_draws (v : Word) : (s.acknowledge v).draws = s.draws := rfl
@[simp] theorem State.acknowledge_obufEpoch (v : Word) : (s.acknowledge v).obufEpoch = s.obufEpoch := rfl
@[simp] theorem State.acknowledge_ibufEpoch (v : Word) : (s.acknowledge v).ibufEpoch = s.ibufEpoch := rfl

/-! ### overrun -/

@[simp] theorem State.overrun_cfg : (s.overrun).cfg = s.cfg := rfl
@[simp] theorem State.overrun_ie : (s.overrun).ie = s.ie := rfl
@[simp] theorem State.overrun_status : (s.overrun).status = { s.status with ovr := true } := rfl
@[simp] theorem State.overrun_inLen : (s.overrun).inLen = s.inLen := rfl
@[simp] theorem State.overrun_outLen : (s.overrun).outLen = s.outLen := rfl
@[simp] theorem State.overrun_frameHdr : (s.overrun).frameHdr = s.frameHdr := rfl
@[simp] theorem State.overrun_payloadLen : (s.overrun).payloadLen = s.payloadLen := rfl
@[simp] theorem State.overrun_maskKey : (s.overrun).maskKey = s.maskKey := rfl
@[simp] theorem State.overrun_wireLen : (s.overrun).wireLen = s.wireLen := rfl
@[simp] theorem State.overrun_digest : (s.overrun).digest = s.digest := rfl
@[simp] theorem State.overrun_ibuf : (s.overrun).ibuf = s.ibuf := rfl
@[simp] theorem State.overrun_obuf : (s.overrun).obuf = s.obuf := rfl
@[simp] theorem State.overrun_inflight : (s.overrun).inflight = s.inflight := rfl
@[simp] theorem State.overrun_host : (s.overrun).host = s.host := rfl
@[simp] theorem State.overrun_sched : (s.overrun).sched = s.sched := rfl
@[simp] theorem State.overrun_resp : (s.overrun).resp = s.resp := rfl
@[simp] theorem State.overrun_draws : (s.overrun).draws = s.draws := rfl
@[simp] theorem State.overrun_obufEpoch : (s.overrun).obufEpoch = s.obufEpoch := rfl
@[simp] theorem State.overrun_ibufEpoch : (s.overrun).ibufEpoch = s.ibufEpoch := rfl

/-! ### resetRegisters -/

@[simp] theorem State.resetRegisters_cfg : (s.resetRegisters).cfg = s.cfg := rfl
@[simp] theorem State.resetRegisters_ie : (s.resetRegisters).ie = false := rfl
@[simp] theorem State.resetRegisters_status : (s.resetRegisters).status = Status.zero := rfl
@[simp] theorem State.resetRegisters_inLen : (s.resetRegisters).inLen = 0 := rfl
@[simp] theorem State.resetRegisters_outLen : (s.resetRegisters).outLen = 0 := rfl
@[simp] theorem State.resetRegisters_frameHdr : (s.resetRegisters).frameHdr = 0 := rfl
@[simp] theorem State.resetRegisters_payloadLen : (s.resetRegisters).payloadLen = 0 := rfl
@[simp] theorem State.resetRegisters_maskKey : (s.resetRegisters).maskKey = 0 := rfl
@[simp] theorem State.resetRegisters_wireLen : (s.resetRegisters).wireLen = 0 := rfl
@[simp] theorem State.resetRegisters_digest : (s.resetRegisters).digest = Digest.zero := rfl
@[simp] theorem State.resetRegisters_ibuf : (s.resetRegisters).ibuf = s.ibuf := rfl
@[simp] theorem State.resetRegisters_obuf : (s.resetRegisters).obuf = s.obuf := rfl
@[simp] theorem State.resetRegisters_inflight : (s.resetRegisters).inflight = none := rfl
@[simp] theorem State.resetRegisters_host : (s.resetRegisters).host = s.host := rfl
@[simp] theorem State.resetRegisters_sched : (s.resetRegisters).sched = s.sched := rfl
@[simp] theorem State.resetRegisters_resp : (s.resetRegisters).resp = s.resp := rfl
@[simp] theorem State.resetRegisters_draws : (s.resetRegisters).draws = s.draws := rfl
@[simp] theorem State.resetRegisters_obufEpoch : (s.resetRegisters).obufEpoch = s.obufEpoch := rfl
@[simp] theorem State.resetRegisters_ibufEpoch : (s.resetRegisters).ibufEpoch = s.ibufEpoch := rfl

/-! ### obufLost -/

@[simp] theorem State.obufLost_cfg : (s.obufLost).cfg = s.cfg := rfl
@[simp] theorem State.obufLost_ie : (s.obufLost).ie = s.ie := rfl
@[simp] theorem State.obufLost_status : (s.obufLost).status = s.status := rfl
@[simp] theorem State.obufLost_inLen : (s.obufLost).inLen = s.inLen := rfl
@[simp] theorem State.obufLost_outLen : (s.obufLost).outLen = s.outLen := rfl
@[simp] theorem State.obufLost_frameHdr : (s.obufLost).frameHdr = s.frameHdr := rfl
@[simp] theorem State.obufLost_payloadLen : (s.obufLost).payloadLen = s.payloadLen := rfl
@[simp] theorem State.obufLost_maskKey : (s.obufLost).maskKey = s.maskKey := rfl
@[simp] theorem State.obufLost_wireLen : (s.obufLost).wireLen = s.wireLen := rfl
@[simp] theorem State.obufLost_digest : (s.obufLost).digest = s.digest := rfl
@[simp] theorem State.obufLost_ibuf : (s.obufLost).ibuf = s.ibuf := rfl
@[simp] theorem State.obufLost_obuf : (s.obufLost).obuf = [] := rfl
@[simp] theorem State.obufLost_inflight : (s.obufLost).inflight = s.inflight := rfl
@[simp] theorem State.obufLost_host : (s.obufLost).host = s.host := rfl
@[simp] theorem State.obufLost_sched : (s.obufLost).sched = s.sched := rfl
@[simp] theorem State.obufLost_resp : (s.obufLost).resp = s.resp := rfl
@[simp] theorem State.obufLost_draws : (s.obufLost).draws = s.draws + 1 := rfl
@[simp] theorem State.obufLost_obufEpoch : (s.obufLost).obufEpoch = s.draws := rfl
@[simp] theorem State.obufLost_ibufEpoch : (s.obufLost).ibufEpoch = s.ibufEpoch := rfl

/-! ### hardwareReset -/

@[simp] theorem State.hardwareReset_cfg : (s.hardwareReset).cfg = s.cfg := rfl
@[simp] theorem State.hardwareReset_ie : (s.hardwareReset).ie = false := rfl
@[simp] theorem State.hardwareReset_status : (s.hardwareReset).status = Status.zero := rfl
@[simp] theorem State.hardwareReset_inLen : (s.hardwareReset).inLen = 0 := rfl
@[simp] theorem State.hardwareReset_outLen : (s.hardwareReset).outLen = 0 := rfl
@[simp] theorem State.hardwareReset_frameHdr : (s.hardwareReset).frameHdr = 0 := rfl
@[simp] theorem State.hardwareReset_payloadLen : (s.hardwareReset).payloadLen = 0 := rfl
@[simp] theorem State.hardwareReset_maskKey : (s.hardwareReset).maskKey = 0 := rfl
@[simp] theorem State.hardwareReset_wireLen : (s.hardwareReset).wireLen = 0 := rfl
@[simp] theorem State.hardwareReset_digest : (s.hardwareReset).digest = Digest.zero := rfl
@[simp] theorem State.hardwareReset_ibuf : (s.hardwareReset).ibuf = [] := rfl
@[simp] theorem State.hardwareReset_obuf : (s.hardwareReset).obuf = [] := rfl
@[simp] theorem State.hardwareReset_inflight : (s.hardwareReset).inflight = none := rfl
@[simp] theorem State.hardwareReset_host : (s.hardwareReset).host = s.host := rfl
@[simp] theorem State.hardwareReset_sched : (s.hardwareReset).sched = s.sched := rfl
@[simp] theorem State.hardwareReset_resp : (s.hardwareReset).resp = s.resp := rfl
@[simp] theorem State.hardwareReset_draws : (s.hardwareReset).draws = s.draws + 1 := rfl
@[simp] theorem State.hardwareReset_obufEpoch : (s.hardwareReset).obufEpoch = s.draws := rfl
@[simp] theorem State.hardwareReset_ibufEpoch : (s.hardwareReset).ibufEpoch = s.draws := rfl

/-! ### STATUS -/

variable (st : Status)

@[simp] theorem Status.issued_done : st.issued.done = false := rfl
@[simp] theorem Status.issued_uopc : st.issued.uopc = false := rfl
@[simp] theorem Status.issued_ovr : st.issued.ovr = st.ovr := rfl
@[simp] theorem Status.issued_err : st.issued.err = .none := rfl
@[simp] theorem Status.completed_done (e : ErrCode) (u : Bool) : (st.completed e u).done = true := rfl
@[simp] theorem Status.completed_uopc (e : ErrCode) (u : Bool) : (st.completed e u).uopc = u := rfl
@[simp] theorem Status.completed_ovr (e : ErrCode) (u : Bool) : (st.completed e u).ovr = st.ovr := rfl
@[simp] theorem Status.completed_err (e : ErrCode) (u : Bool) : (st.completed e u).err = e := rfl
@[simp] theorem Status.w1c_done (v : Word) : (st.w1c v).done = (st.done && !v.getLsbD 1) := rfl
@[simp] theorem Status.w1c_uopc (v : Word) : (st.w1c v).uopc = st.uopc := rfl
@[simp] theorem Status.w1c_ovr (v : Word) : (st.w1c v).ovr = (st.ovr && !v.getLsbD 3) := rfl
@[simp] theorem Status.w1c_err (v : Word) : (st.w1c v).err = st.err := rfl
@[simp] theorem Status.zero_done : Status.zero.done = false := rfl
@[simp] theorem Status.zero_uopc : Status.zero.uopc = false := rfl
@[simp] theorem Status.zero_ovr : Status.zero.ovr = false := rfl
@[simp] theorem Status.zero_err : Status.zero.err = .none := rfl

/-! ### BUSY -/

theorem State.busy_eq : s.busy = s.inflight.isSome := rfl
@[simp] theorem State.issue_busy (w : Word) : (s.issue w).busy = true := rfl
@[simp] theorem State.finish_busy (e : ErrCode) (u : Bool) : (s.finish e u).busy = false := rfl
@[simp] theorem State.overrun_busy : s.overrun.busy = s.busy := rfl
@[simp] theorem State.acknowledge_busy (v : Word) : (s.acknowledge v).busy = s.busy := rfl
@[simp] theorem State.resetRegisters_busy : s.resetRegisters.busy = false := rfl

end Sys2Proof.Machine
end

