-- ==== Sys2Proof/Laws/Bytes.lean ====
section
/-! SUPPORT. The laws of the byte-order and masking helpers. -/

namespace Sys2Proof.Machine

@[simp] theorem beBytes_length (n v : Nat) : (beBytes n v).length = n := by simp [beBytes]

@[simp] theorem laneBytes_length (n : Nat) (v : Word) : (laneBytes n v).length = n := by simp [laneBytes]

theorem slice_length (s : List Byte) (i n : Nat) (h : i + n ≤ s.length) : (slice s i n).length = n := by
  simp [slice]; omega

theorem fromBe_append (s : List Byte) (b : Byte) : fromBe (s ++ [b]) = fromBe s * 256 + b.toNat := by
  simp [fromBe, List.foldl_append]

theorem fromBe_lt (s : List Byte) : fromBe s < 256 ^ s.length := by
  induction s using List.reverseRecOn with
  | nil => simp [fromBe]
  | append_singleton s b ih =>
    rw [fromBe_append, List.length_append, List.length_singleton, pow_succ]
    have := b.isLt
    omega

theorem beBytes_succ (n v : Nat) : beBytes (n + 1) v = beBytes n (v / 256) ++ [BitVec.ofNat 8 v] := by
  simp only [beBytes, List.range_succ, List.map_append, List.map_cons, List.map_nil]
  congr 1
  · apply List.map_congr_left
    intro k hk
    have hk : k < n := List.mem_range.mp hk
    have h : 8 * (n + 1 - 1 - k) = 8 + 8 * (n - 1 - k) := by omega
    rw [h, Nat.shiftRight_add, Nat.shiftRight_eq_div_pow v 8]
  · simp

/-- Reading back a big-endian encoding (00_scope.md R17). -/
theorem fromBe_beBytes (n v : Nat) (h : v < 256 ^ n) : fromBe (beBytes n v) = v := by
  induction n generalizing v with
  | zero => simp [beBytes, fromBe] at *; omega
  | succ n ih =>
    rw [beBytes_succ, fromBe_append, ih]
    · simp only [BitVec.toNat_ofNat]; omega
    · rw [pow_succ] at h; omega

@[simp] theorem xorMask_length (key : Word) (s : List Byte) : (xorMask key s).length = s.length := by simp [xorMask]

theorem xorMask_getElem (key : Word) (s : List Byte) (i : Nat) (h : i < (xorMask key s).length) :
    (xorMask key s)[i] = s[i]'(by simpa using h) ^^^ maskByte key (i % 4) := by
  simp [xorMask]

/-- Masking is its own inverse (30_encoding.md R318). -/
theorem xorMask_xorMask (key : Word) (s : List Byte) : xorMask key (xorMask key s) = s := by
  apply List.ext_getElem
  · simp
  · intro i h₁ h₂
    simp [xorMask_getElem]

@[simp] theorem hdrMasked_mkHdr (m : Bool) (b : Byte) : hdrMasked (mkHdr m b) = m := by
  revert m b; decide +kernel

@[simp] theorem hdrByte0_mkHdr (m : Bool) (b : Byte) : hdrByte0 (mkHdr m b) = b := by
  revert m b; decide +kernel

@[simp] theorem mkHdr_parts (h : BitVec 9) : mkHdr (hdrMasked h) (hdrByte0 h) = h := by
  revert h; decide +kernel

end Sys2Proof.Machine
end

