-- ==== Sys2Proof/Laws/Base64.lean ====
section
/-! SUPPORT. The laws of the Base64 codec. -/

namespace Sys2Proof.Machine

theorem dec64_enc64 (v : BitVec 6) : dec64 (enc64 v) = some v := by revert v; decide +kernel

theorem enc64_ne_pad (v : BitVec 6) : enc64 v ≠ padChar := by revert v; decide +kernel

/-- The length of the text (R404). -/
theorem b64Encode_length (s : List Byte) : (b64Encode s).length = 4 * ceilDiv s.length 3 := by
  fun_induction b64Encode s with
  | case1 => simp [ceilDiv]
  | case2 b0 g => simp [ceilDiv]
  | case3 b0 b1 g => simp [ceilDiv]
  | case4 b0 b1 b2 rest g ih => simp [ceilDiv] at *; omega

theorem joinGroups_length (vs : List (BitVec 6)) : (joinGroups vs).length = 3 * (vs.length / 4) := by
  fun_induction joinGroups vs with
  | case1 v0 v1 v2 v3 rest g ih => simp [ih]; omega
  | case2 vs h =>
    match vs with
    | [] => rfl
    | [_] => simp
    | [_, _] => simp
    | [_, _, _] => simp
    | a :: b :: c :: d :: r => exact absurd rfl (h a b c d r)

theorem padCount_le (t : List Byte) : padCount t ≤ 2 := by
  simp only [padCount]; split
  · omega
  · split
    · split <;> omega
    · omega

/-- The length of the decoded bytes (R421). -/
theorem b64Decode_length {t out : List Byte} (h : b64Decode t = some out) (h4 : t.length % 4 = 0) :
    out.length = 3 * (t.length / 4) - padCount t := by
  have hp := padCount_le t
  have hz : t.length = 0 → padCount t = 0 := fun hz => by simp [padCount, hz]
  have hle : padCount t ≤ t.length := by
    by_cases hn : t.length = 0
    · simp [hz hn]
    · omega
  simp only [b64Decode] at h
  split at h
  · simp only [Option.some.injEq] at h
    subst h
    simp only [List.length_take, joinGroups_length, List.length_append, List.length_map, List.length_replicate]
    have : min (t.length - padCount t) t.length + padCount t = t.length := by omega
    rw [this]; omega
  · simp at h


theorem group24_bit (b0 b1 b2 : Byte) (i : Nat) : (group24 b0 b1 b2).getLsbD i =
    if i < 8 then b2.getLsbD i else if i < 16 then b1.getLsbD (i - 8) else b0.getLsbD (i - 16) := by
  show (b0 ++ b1 ++ b2 : BitVec (8 + 8 + 8)).getLsbD i = _
  simp only [BitVec.getLsbD_append]
  by_cases h : i < 8
  · simp [h]
  · by_cases h' : i < 16
    · have : i - 8 < 8 := by omega
      simp [h, h', this]
    · have : ¬ i - 8 < 8 := by omega
      simp [h, h', this, Nat.sub_sub]

theorem group24_hi (b0 b1 b2 : Byte) : (group24 b0 b1 b2).extractLsb' 16 8 = b0 := by
  apply BitVec.eq_of_getLsbD_eq; intro i hi
  have h1 : ¬ 16 + i < 8 := by omega
  have h2 : ¬ 16 + i < 16 := by omega
  simp [group24_bit, hi, h1]

theorem group24_mid (b0 b1 b2 : Byte) : (group24 b0 b1 b2).extractLsb' 8 8 = b1 := by
  apply BitVec.eq_of_getLsbD_eq; intro i hi
  have h2 : 8 + i < 16 := by omega
  simp [group24_bit, hi, h2]

theorem group24_lo (b0 b1 b2 : Byte) : (group24 b0 b1 b2).extractLsb' 0 8 = b2 := by
  apply BitVec.eq_of_getLsbD_eq; intro i hi
  simp [group24_bit, hi]

theorem group24_index3 (b0 b1 : Byte) : (group24 b0 b1 0).extractLsb' 0 6 = 0 := by
  apply BitVec.eq_of_getLsbD_eq; intro i hi
  have h1 : i < 8 := by omega
  simp [BitVec.getLsbD_extractLsb', group24_bit, h1]

theorem group24_index2 (b0 : Byte) : (group24 b0 0 0).extractLsb' 6 6 = 0 := by
  apply BitVec.eq_of_getLsbD_eq; intro i hi
  have h1 : 6 + i < 16 := by omega
  simp [BitVec.getLsbD_extractLsb', group24_bit, h1]

theorem group_split (g : BitVec 24) :
    g.extractLsb' 18 6 ++ g.extractLsb' 12 6 ++ g.extractLsb' 6 6 ++ g.extractLsb' 0 6 = g := by
  ext i hi
  simp only [BitVec.getElem_append, BitVec.getElem_extractLsb']
  interval_cases i <;> simp [BitVec.getLsbD_eq_getElem]

/-- One group: its four indices join to its three bytes (R403). -/
theorem joinGroups_group (b0 b1 b2 : Byte) (rest : List (BitVec 6)) :
    joinGroups ((group24 b0 b1 b2).extractLsb' 18 6 :: (group24 b0 b1 b2).extractLsb' 12 6 ::
      (group24 b0 b1 b2).extractLsb' 6 6 :: (group24 b0 b1 b2).extractLsb' 0 6 :: rest) =
      b0 :: b1 :: b2 :: joinGroups rest := by
  have h := group_split (group24 b0 b1 b2)
  rw [joinGroups]
  erw [h]
  rw [group24_hi, group24_mid, group24_lo]

/-- What the encoder writes: characters of the alphabet, then p padding characters, such that the indices with p zeros
join to the input and p bytes that are dropped (R400, R412). -/
theorem b64Encode_shape (s : List Byte) :
    ∃ (vs : List (BitVec 6)) (p : Nat) (extra : List Byte),
      b64Encode s = vs.map enc64 ++ List.replicate p padChar ∧ (vs.length + p) % 4 = 0 ∧ p ≤ 2 ∧
      joinGroups (vs ++ List.replicate p 0) = s ++ extra ∧ extra.length = p := by
  fun_induction b64Encode s with
  | case1 => exact ⟨[], 0, [], rfl, rfl, by omega, rfl, rfl⟩
  | case2 b0 g =>
    refine ⟨[g.extractLsb' 18 6, g.extractLsb' 12 6], 2, [0, 0], rfl, by simp, by omega, ?_, rfl⟩
    have h := joinGroups_group b0 0 0 []
    rw [group24_index2, group24_index3] at h
    exact h
  | case3 b0 b1 g =>
    refine ⟨[g.extractLsb' 18 6, g.extractLsb' 12 6, g.extractLsb' 6 6], 1, [0], rfl, by simp, by omega, ?_, rfl⟩
    have h := joinGroups_group b0 b1 0 []
    rw [group24_index3] at h
    exact h
  | case4 b0 b1 b2 rest g ih =>
    obtain ⟨vs, p, extra, h1, h2, h3, h4, h5⟩ := ih
    refine ⟨g.extractLsb' 18 6 :: g.extractLsb' 12 6 :: g.extractLsb' 6 6 :: g.extractLsb' 0 6 :: vs, p, extra, ?_, ?_,
      h3, ?_, h5⟩
    · rw [h1]; rfl
    · simp only [List.length_cons]; omega
    · have h := joinGroups_group b0 b1 b2 (vs ++ List.replicate p 0)
      rw [h4] at h
      exact h

theorem padCount_padded (vs : List (BitVec 6)) (p : Nat) (h4 : (vs.length + p) % 4 = 0) (hp : p ≤ 2) :
    padCount (vs.map enc64 ++ List.replicate p padChar) = p := by
  have hn : (vs.map enc64 ++ List.replicate p padChar).length = vs.length + p := by simp
  have hv : ∀ i, i < vs.length → (vs.map enc64 ++ List.replicate p padChar)[i]? ≠ some padChar := by
    intro i hi h
    rw [List.getElem?_append_left (by simpa using hi), List.getElem?_map] at h
    obtain ⟨v, -, hv⟩ := Option.map_eq_some_iff.mp h
    exact enc64_ne_pad v hv
  have hq : ∀ i, vs.length ≤ i → i < vs.length + p →
      (vs.map enc64 ++ List.replicate p padChar)[i]? = some padChar := by
    intro i h1 h2
    have h3 : i - vs.length < p := by omega
    rw [List.getElem?_append_right (by simpa using h1)]
    simp [h3]
  simp only [padCount, hn]
  by_cases h0 : vs.length + p = 0
  · simp [h0]; omega
  · rw [if_neg h0]
    obtain rfl | rfl | rfl : p = 0 ∨ p = 1 ∨ p = 2 := by omega
    · rw [if_neg (hv _ (by omega))]
    · rw [if_pos (hq _ (by omega) (by omega)), if_neg (hv _ (by omega))]
    · rw [if_pos (hq _ (by omega) (by omega)), if_pos (hq _ (by omega) (by omega))]

/-- Base64 round trip (R420). -/
theorem b64Decode_b64Encode (s : List Byte) : b64Decode (b64Encode s) = some s := by
  obtain ⟨vs, p, extra, h1, h2, h3, h4, h5⟩ := b64Encode_shape s
  have hl := joinGroups_length (vs ++ List.replicate p 0)
  rw [h4] at hl
  simp only [List.length_append, List.length_replicate] at hl
  have hbody : (vs.map enc64 ++ List.replicate p padChar).take
      ((vs.map enc64 ++ List.replicate p padChar).length - p) = vs.map enc64 := by
    simp
  have hidx : ((vs.map enc64).map fun c => (dec64 c).getD 0) = vs := by
    simp [Function.comp_def, dec64_enc64]
  rw [b64Decode, h1, padCount_padded vs p h2 h3, hbody]
  simp only [hidx, h4]
  rw [if_pos (by simp [dec64_enc64])]
  simp only [List.length_append, List.length_map, List.length_replicate]
  rw [List.take_append_of_le_length (by omega), List.take_of_length_le (by omega)]

end Sys2Proof.Machine
end

