-- ==== Sys2Proof/Laws/Memory.lean ====
section
/-! SUPPORT. The laws of the buffers: read after write, and that every write keeps the canonical form. -/

namespace Sys2Proof.Machine

@[simp] theorem Memory.get_nil (o : Nat) : Memory.get [] o = none := rfl

theorem Memory.get_cons (a : Nat) (b : Byte) (m : Memory) (o : Nat) :
    Memory.get ((a, b) :: m) o = if a = o then some b else Memory.get m o := rfl

theorem Memory.get_append (m m' : Memory) (o : Nat) :
    Memory.get (m ++ m') o = (Memory.get m o).or (Memory.get m' o) := by
  induction m with
  | nil => simp
  | cons c m ih =>
    obtain ⟨a, b⟩ := c
    simp only [List.cons_append, Memory.get_cons]
    split <;> simp [ih]

theorem Memory.get_filter (m : Memory) (p : Nat → Bool) (o : Nat) :
    Memory.get (m.filter fun c => p c.1) o = if p o then Memory.get m o else none := by
  induction m with
  | nil => simp
  | cons c m ih =>
    obtain ⟨a, b⟩ := c
    by_cases ha : p a
    · simp only [List.filter_cons, ha, if_true, Memory.get_cons, ih]
      by_cases hao : a = o
      · simp [hao ▸ ha, hao]
      · simp [hao]
    · simp only [List.filter_cons, ha, Memory.get_cons]
      by_cases hao : a = o
      · simp [hao ▸ ha, ih]
      · simp [hao, ih]

@[simp] theorem cellsFrom_nil (o : Nat) : cellsFrom o [] = [] := rfl

theorem cellsFrom_cons (o : Nat) (b : Byte) (bs : List Byte) :
    cellsFrom o (b :: bs) = (o, b) :: cellsFrom (o + 1) bs := by
  simp [cellsFrom, List.mapIdx_cons, Nat.add_assoc, Nat.add_comm 1]

theorem Memory.get_cellsFrom (o : Nat) (bs : List Byte) (a : Nat) :
    Memory.get (cellsFrom o bs) a = if o ≤ a then bs[a - o]? else none := by
  induction bs generalizing o with
  | nil => simp
  | cons b bs ih =>
    rw [cellsFrom_cons, Memory.get_cons, ih]
    by_cases h : o = a
    · simp [h]
    · by_cases h' : o ≤ a
      · have : a - o = (a - (o + 1)) + 1 := by omega
        have : o + 1 ≤ a := by omega
        simp_all
      · have : ¬ o + 1 ≤ a := by omega
        simp [h, h', this]

/-- Read after write: an offset inside the written run reads the byte written there, every other offset reads as
before. -/
theorem Memory.get_write (m : Memory) (o : Nat) (bs : List Byte) (a : Nat) :
    (m.write o bs).get a = if o ≤ a ∧ a < o + bs.length then bs[a - o]? else m.get a := by
  have h1 := Memory.get_filter m (fun x => decide (x < o)) a
  have h2 := Memory.get_filter m (fun x => decide (o + bs.length ≤ x)) a
  simp only [Memory.write, Memory.get_append, h1, h2, Memory.get_cellsFrom]
  by_cases hl : a < o
  · have h3 : ¬ o ≤ a := by omega
    have h4 : ¬ o + bs.length ≤ a := by omega
    simp [hl, h3, h4]
  · by_cases hr : a < o + bs.length
    · have h3 : a - o < bs.length := by omega
      have : o ≤ a := by omega
      simp [hl, hr, this, h3]
    · have h3 : bs.length ≤ a - o := by omega
      simp [hl, hr, h3]

theorem Memory.get_write_inside {m : Memory} {o : Nat} {bs : List Byte} {i : Nat} (h : i < bs.length) :
    (m.write o bs).get (o + i) = some bs[i] := by
  simp [Memory.get_write, h]

theorem Memory.get_write_outside {m : Memory} {o : Nat} {bs : List Byte} {a : Nat} (h : a < o ∨ o + bs.length ≤ a) :
    (m.write o bs).get a = m.get a := by
  rw [Memory.get_write, if_neg (by omega)]

theorem cellsFrom_mem {o : Nat} {bs : List Byte} {c : Host.Cell} (h : c ∈ cellsFrom o bs) :
    o ≤ c.1 ∧ c.1 < o + bs.length := by
  simp only [cellsFrom, List.mem_mapIdx] at h
  obtain ⟨i, hi, rfl⟩ := h
  simp [hi]

theorem cellsFrom_pairwise (o : Nat) (bs : List Byte) : (cellsFrom o bs).Pairwise (fun a b => a.1 < b.1) := by
  induction bs generalizing o with
  | nil => simp
  | cons b bs ih =>
    rw [cellsFrom_cons]
    refine List.Pairwise.cons (fun c hc => ?_) (ih _)
    have := cellsFrom_mem hc
    simp only
    omega

/-- A write inside the buffer keeps the canonical form. -/
theorem Memory.wf_write {size : Nat} {m : Memory} {o : Nat} {bs : List Byte} (hm : m.wf size)
    (hb : o + bs.length ≤ size) : (m.write o bs).wf size := by
  refine ⟨?_, ?_⟩
  · have hs := cellsFrom_pairwise o bs
    simp only [Memory.write, List.pairwise_append, List.mem_append, List.mem_filter, decide_eq_true_eq]
    refine ⟨⟨hm.1.filter _, hs, ?_⟩, hm.1.filter _, ?_⟩
    · rintro a ⟨-, ha⟩ b hb
      have := cellsFrom_mem hb
      omega
    · rintro a (⟨-, ha⟩ | ha) b ⟨-, hb'⟩
      · omega
      · have := cellsFrom_mem ha
        omega
  · intro c hc
    simp only [Memory.write, List.mem_append, List.mem_filter] at hc
    rcases hc with (⟨hc, -⟩ | hc) | ⟨hc, -⟩
    · exact hm.2 c hc
    · have := cellsFrom_mem hc
      omega
    · exact hm.2 c hc

/-- Writing the same bytes to the same place again changes nothing (20_memory.md R208). -/
theorem Memory.write_again (m : Memory) (o : Nat) (bs : List Byte) : (m.write o bs).write o bs = m.write o bs := by
  have below : (cellsFrom o bs).filter (fun c => c.1 < o) = [] := by
    rw [List.filter_eq_nil_iff]
    intro c hc
    have := cellsFrom_mem hc
    simp
    omega
  have above : (cellsFrom o bs).filter (fun c => o + bs.length ≤ c.1) = [] := by
    rw [List.filter_eq_nil_iff]
    intro c hc
    have := cellsFrom_mem hc
    simp
    omega
  have both : ∀ l : Memory, l.filter (fun c => decide (c.1 < o) && decide (o + bs.length ≤ c.1)) = [] ∧
      l.filter (fun c => decide (o + bs.length ≤ c.1) && decide (c.1 < o)) = [] := by
    intro l
    constructor <;>
    · rw [List.filter_eq_nil_iff]
      intro c _
      simp
      omega
  simp only [Memory.write, List.filter_append, List.filter_filter, below, above, List.append_nil]
  simp [both]

theorem Memory.wf_nil (size : Nat) : Memory.wf size [] := by simp [Memory.wf]

/-- Writing no byte changes nothing. -/
theorem Memory.write_nil_zero (m : Memory) : m.write 0 [] = m := by
  simp [Memory.write]

/-! ### The bytes of the buffers after each update -/

@[simp] theorem State.memRead_length (s : State) (i n : Nat) : (s.memRead i n).length = n := by
  simp [State.memRead]

theorem State.memRead_getElem (s : State) (i n k : Nat) (h : k < (s.memRead i n).length) :
    (s.memRead i n)[k] = s.ibufByte (i + k) := by
  simp [State.memRead]

/-- OBUF after a delivery: the delivered bytes, then what was there. -/
theorem State.obufByte_deliver (s : State) (bs : List Byte) (a : Nat) :
    (s.deliver bs).obufByte a = if h : a < bs.length then bs[a] else s.obufByte a := by
  simp only [State.obufByte, State.deliver_obuf, State.deliver_obufEpoch, Memory.get_write]
  by_cases h : a < bs.length <;> simp [h]

@[simp] theorem State.obufByte_finish (s : State) (e : ErrCode) (u : Bool) (a : Nat) :
    (s.finish e u).obufByte a = s.obufByte a := rfl

end Sys2Proof.Machine
end

