-- ==== Sys2Proof/Laws/Bus.lean ====
section
/-! SUPPORT. What a host access can do: where it lands, and the states it can leave. -/

namespace Sys2Proof.Machine

/-! ### The address map -/

@[simp] theorem regAt_offset (r : Reg) : regAt r.offset = some r := by cases r <;> decide

theorem locate_reg (size : Nat) (r : Reg) : locate size .w32 r.offset = .ok (.reg r) := by
  have h1 : r.offset < 0x100 := by cases r <;> decide
  have h2 : r.offset % 4 = 0 := by cases r <;> decide
  simp [locate, h1, h2]

theorem bufTarget_ok {size : Nat} {b : Buf} {w : Width} {o : Nat} (ha : o % w.bytes = 0) (hs : o + w.bytes ≤ size) :
    bufTarget size b w o = .ok (.buf b o) := by
  simp [bufTarget, ha, hs]

theorem Width.bytes_pos (w : Width) : 0 < w.bytes := by cases w <;> decide

theorem locate_ibuf {size : Nat} {w : Width} {o : Nat} (hz : size ≤ 2 ^ 20) (ha : o % w.bytes = 0)
    (hs : o + w.bytes ≤ size) : locate size w (0x100000 + o) = .ok (.buf .ibuf o) := by
  have := w.bytes_pos
  have h3 : 0x100000 + o < 0x200000 := by omega
  simp only [locate]
  rw [if_neg (by omega), if_neg (by omega), if_pos h3, Nat.add_sub_cancel_left, bufTarget_ok ha hs]

theorem locate_obuf {size : Nat} {w : Width} {o : Nat} (hz : size ≤ 2 ^ 20) (ha : o % w.bytes = 0)
    (hs : o + w.bytes ≤ size) : locate size w (0x200000 + o) = .ok (.buf .obuf o) := by
  have := w.bytes_pos
  have h3 : 0x200000 + o < 0x400000 := by omega
  simp only [locate]
  rw [if_neg (by omega), if_neg (by omega), if_neg (by omega), if_pos h3, Nat.add_sub_cancel_left, bufTarget_ok ha hs]

/-- A located buffer access is aligned and inside the buffer (20_memory.md R203). -/
theorem locate_buf {size : Nat} {w : Width} {off o : Nat} {b : Buf} (h : locate size w off = .ok (.buf b o)) :
    o % w.bytes = 0 ∧ o + w.bytes ≤ size := by
  have hb : ∀ {b' : Buf} {o' : Nat}, bufTarget size b' w o' = .ok (.buf b o) → o % w.bytes = 0 ∧ o + w.bytes ≤ size := by
    intro b' o' hb
    simp only [bufTarget] at hb
    split at hb
    · next hc =>
      simp only [Except.ok.injEq, Target.buf.injEq] at hb
      exact hb.2 ▸ hc
    · simp at hb
  simp only [locate] at h
  split at h
  · split at h
    · split at h <;> simp at h
    · simp at h
  · split at h
    · simp at h
    · split at h
      · exact hb h
      · split at h
        · exact hb h
        · simp at h

/-- Only a 32-bit access at its own offset reaches a register (20_memory.md R202). -/
theorem locate_reg_offset {size : Nat} {w : Width} {off : Nat} {r : Reg} (h : locate size w off = .ok (.reg r)) :
    w = .w32 ∧ off = r.offset := by
  have hb : ∀ {b : Buf} {o : Nat}, bufTarget size b w o ≠ .ok (.reg r) := by
    intro b o
    simp only [bufTarget]
    split <;> simp
  simp only [locate] at h
  split at h
  · split at h
    · next hw =>
      split at h
      · next r' hr =>
        simp only [Except.ok.injEq, Target.reg.injEq] at h
        subst h
        exact ⟨hw.1, (beq_iff_eq.mp (by simpa using List.find?_some hr)).symm⟩
      · simp at h
    · simp at h
  · split at h
    · simp at h
    · split at h
      · exact absurd h hb
      · split at h
        · exact absurd h hb
        · simp at h

/-- A buffer access lies in that buffer's window (20_memory.md R201). -/
theorem locate_buf_offset {size : Nat} {w : Width} {off o : Nat} {b : Buf} (h : locate size w off = .ok (.buf b o)) :
    (b = .ibuf ∧ off = 0x100000 + o) ∨ (b = .obuf ∧ off = 0x200000 + o) := by
  have hb : ∀ {b' : Buf} {o' : Nat}, bufTarget size b' w o' = .ok (.buf b o) → b = b' ∧ o = o' := by
    intro b' o' hb
    simp only [bufTarget] at hb
    split at hb
    · simp only [Except.ok.injEq, Target.buf.injEq] at hb
      exact ⟨hb.1.symm, hb.2.symm⟩
    · simp at hb
  simp only [locate] at h
  split at h
  · split at h
    · split at h <;> simp at h
    · simp at h
  · split at h
    · simp at h
    · split at h
      · obtain ⟨h1, h2⟩ := hb h
        exact .inl ⟨h1, by omega⟩
      · split at h
        · obtain ⟨h1, h2⟩ := hb h
          exact .inr ⟨h1, by omega⟩
        · simp at h

@[simp] theorem offsetOf_addrOf (p : Params) (off : Nat) (h : off < apertureBytes) :
    offsetOf p (addrOf p off) = some off := by
  simp [offsetOf, addrOf, h]

/-! ### Reads -/

@[simp] theorem State.drawsAfterRead_ibuf (s : State) : s.drawsAfterRead .ibuf = s.draws := rfl

theorem State.drawsAfterRead_idle {s : State} (h : s.busy = false) (b : Buf) : s.drawsAfterRead b = s.draws := by
  cases b <;> simp [State.drawsAfterRead, h]

theorem State.drawsAfterRead_busy {s : State} (h : s.busy = true) : s.drawsAfterRead .obuf = s.draws + 1 := by
  simp [State.drawsAfterRead, h]

theorem State.le_drawsAfterRead (s : State) (b : Buf) : s.draws ≤ s.drawsAfterRead b := by
  cases b
  · exact le_refl _
  · simp only [State.drawsAfterRead]
    split <;> omega

/-- A read changes the response and the draw counter only (20_memory.md R208). -/
theorem busRead_next {w : Width} {off : Nat} {s t : State} (h : busRead w off s = .next t) :
    ∃ v d, t = { s with resp := .data v, draws := d } ∧ s.draws ≤ d := by
  simp only [busRead] at h
  split at h
  · simp at h
  · simp only [Host.Outcome.next.injEq] at h
    exact ⟨_, s.draws, h.symm, le_refl _⟩
  · simp only [Host.Outcome.next.injEq] at h
    exact ⟨_, _, h.symm, s.le_drawsAfterRead _⟩

theorem busRead_reg (s : State) (r : Reg) : busRead .w32 r.offset s = .next { s with resp := .data (s.readReg r) } := by
  simp [busRead, locate_reg]

/-- Two lanes of a word built byte by byte from the top. -/
theorem shiftIn_lanes (b : Byte) (x : Word) (m : Nat) (hm : m ≤ 24) (hx : x.toNat < 2 ^ m) :
    ((x <<< 8) ||| b.setWidth 32).extractLsb' 0 8 = b ∧
    (∀ j, j + 8 ≤ m → ((x <<< 8) ||| b.setWidth 32).extractLsb' (j + 8) 8 = x.extractLsb' j 8) ∧
    ((x <<< 8) ||| b.setWidth 32).toNat < 2 ^ (m + 8) := by
  refine ⟨?_, ?_, ?_⟩
  · apply BitVec.eq_of_getLsbD_eq
    intro i hi
    simp only [BitVec.getLsbD_extractLsb', BitVec.getLsbD_or, BitVec.getLsbD_shiftLeft, BitVec.getLsbD_setWidth]
    simp [hi, show i < 32 by omega]
  · intro j hj
    apply BitVec.eq_of_getLsbD_eq
    intro i hi
    simp only [BitVec.getLsbD_extractLsb', BitVec.getLsbD_or, BitVec.getLsbD_shiftLeft, BitVec.getLsbD_setWidth]
    rw [BitVec.getLsbD_of_ge b (j + 8 + i) (by omega), show j + 8 + i - 8 = j + i by omega]
    simp [hi, show j + 8 + i < 32 by omega, show ¬ j + 8 + i < 8 by omega]
  · have hx2 : x.toNat < 2 ^ 24 := lt_of_lt_of_le hx (Nat.pow_le_pow_right (by decide) hm)
    have hb := b.isLt
    have e : ((x <<< 8) ||| b.setWidth 32).toNat = 2 ^ 8 * x.toNat + b.toNat := by
      rw [BitVec.toNat_or, BitVec.toNat_shiftLeft, BitVec.toNat_setWidth, Nat.shiftLeft_eq,
        Nat.mod_eq_of_lt (by omega), Nat.mod_eq_of_lt (by omega), Nat.mul_comm, ← Nat.two_pow_add_eq_or_of_lt hb]
    rw [e, Nat.pow_add]
    omega

theorem fromLanes_lt (s : List Byte) (h : s.length ≤ 4) : (fromLanes s).toNat < 2 ^ (8 * s.length) := by
  induction s with
  | nil => simp [fromLanes]
  | cons b s ih =>
    simp only [List.length_cons] at h
    exact (shiftIn_lanes b (fromLanes s) (8 * s.length) (by omega) (ih (by omega))).2.2

/-- Lane k of a data word is byte k (20_memory.md R204). -/
theorem fromLanes_lane (s : List Byte) (h : s.length ≤ 4) (k : Nat) (hk : k < s.length) :
    (fromLanes s).extractLsb' (8 * k) 8 = s[k] := by
  induction s generalizing k with
  | nil => simp at hk
  | cons b s ih =>
    simp only [List.length_cons] at h hk
    obtain ⟨h0, hs, -⟩ := shiftIn_lanes b (fromLanes s) (8 * s.length) (by omega) (fromLanes_lt s (by omega))
    cases k with
    | zero => exact h0
    | succ k => exact (hs (8 * k) (by omega)).trans (ih (by omega) k (by omega))

/-- The lanes of a buffer read, and zeros above them (20_memory.md R204, 00_scope.md R16). -/
theorem State.bufWord_lanes (s : State) (b : Buf) (w : Width) (o : Nat) :
    (∀ k, k < w.bytes → (s.bufWord b w o).extractLsb' (8 * k) 8 = s.hostByte b (o + k)) ∧
    (s.bufWord b w o).toNat < 2 ^ (8 * w.bytes) := by
  have h4 : w.bytes ≤ 4 := by cases w <;> decide
  refine ⟨fun k hk => ?_, ?_⟩
  · have := fromLanes_lane ((List.range w.bytes).map fun k => s.hostByte b (o + k)) (by simpa) k (by simpa)
    simpa [State.bufWord] using this
  · have := fromLanes_lt ((List.range w.bytes).map fun k => s.hostByte b (o + k)) (by simpa)
    simpa [State.bufWord] using this

theorem busRead_ibuf {s : State} {w : Width} {o : Nat} (hz : s.cfg.bufBytes ≤ 2 ^ 20) (ha : o % w.bytes = 0)
    (hs : o + w.bytes ≤ s.cfg.bufBytes) :
    busRead w (0x100000 + o) s = .next { s with resp := .data (s.bufWord .ibuf w o) } := by
  simp [busRead, locate_ibuf hz ha hs]

theorem busRead_obuf {s : State} {w : Width} {o : Nat} (hz : s.cfg.bufBytes ≤ 2 ^ 20) (ha : o % w.bytes = 0)
    (hs : o + w.bytes ≤ s.cfg.bufBytes) :
    busRead w (0x200000 + o) s =
      .next { s with resp := .data (s.bufWord .obuf w o), draws := s.drawsAfterRead .obuf } := by
  simp [busRead, locate_obuf hz ha hs]

/-! ### Writes -/

theorem busWrite_reg (s : State) (r : Reg) (v : Word) :
    busWrite .w32 r.offset v s = .next { s.writeReg r v with resp := .written } := by
  simp [busWrite, locate_reg]

theorem busWrite_ibuf {s : State} {w : Width} {o : Nat} (v : Word) (hz : s.cfg.bufBytes ≤ 2 ^ 20)
    (ha : o % w.bytes = 0) (hs : o + w.bytes ≤ s.cfg.bufBytes) :
    busWrite w (0x100000 + o) v s =
      .next { s.frozen { s with ibuf := s.ibuf.write o (laneBytes w.bytes v) } with resp := .written } := by
  simp [busWrite, locate_ibuf hz ha hs]

theorem State.frozen_idle {s t : State} (h : s.busy = false) : s.frozen t = t := by simp [State.frozen, h]

theorem State.frozen_busy {s t : State} (h : s.busy = true) : s.frozen t = s.overrun := by simp [State.frozen, h]

/-- Every write to a register is one of these (10_state.md R101 to R117). -/
theorem State.writeReg_cases (s : State) (r : Reg) (v : Word) :
    s.writeReg r v = s ∨ s.writeReg r v = s.softReset ∨ (∃ b, s.writeReg r v = { s with ie := b }) ∨
    s.writeReg r v = s.acknowledge v ∨ (s.busy = true ∧ s.writeReg r v = s.overrun) ∨
    (s.busy = false ∧ (s.writeReg r v = s.issue v ∨ s.writeReg r v = { s with inLen := v } ∨
      s.writeReg r v = { s with frameHdr := v.setWidth 9 } ∨ s.writeReg r v = { s with maskKey := v })) := by
  have hf : ∀ x : State, (s.busy = true ∧ s.frozen x = s.overrun) ∨ (s.busy = false ∧ s.frozen x = x) := fun x => by
    cases hb : s.busy
    · exact .inr ⟨rfl, State.frozen_idle hb⟩
    · exact .inl ⟨rfl, State.frozen_busy hb⟩
  cases r with
  | ctrl =>
    by_cases h : v.getLsbD 1 = true
    · exact .inr (.inl (if_pos h))
    · exact .inr (.inr (.inl ⟨v.getLsbD 0, if_neg h⟩))
  | status => exact .inr (.inr (.inr (.inl rfl)))
  | cmd =>
    rcases hf (s.issue v) with h | h
    · exact .inr (.inr (.inr (.inr (.inl h))))
    · exact .inr (.inr (.inr (.inr (.inr ⟨h.1, .inl h.2⟩))))
  | inLen =>
    rcases hf { s with inLen := v } with h | h
    · exact .inr (.inr (.inr (.inr (.inl h))))
    · exact .inr (.inr (.inr (.inr (.inr ⟨h.1, .inr (.inl h.2)⟩))))
  | frameHdr =>
    rcases hf { s with frameHdr := v.setWidth 9 } with h | h
    · exact .inr (.inr (.inr (.inr (.inl h))))
    · exact .inr (.inr (.inr (.inr (.inr ⟨h.1, .inr (.inr (.inl h.2))⟩))))
  | maskKey =>
    rcases hf { s with maskKey := v } with h | h
    · exact .inr (.inr (.inr (.inr (.inl h))))
    · exact .inr (.inr (.inr (.inr (.inr ⟨h.1, .inr (.inr (.inr h.2))⟩))))
  | outLen => exact .inl rfl
  | payloadLen => exact .inl rfl
  | wireLen => exact .inl rfl
  | digest0 => exact .inl rfl
  | digest1 => exact .inl rfl
  | digest2 => exact .inl rfl
  | digest3 => exact .inl rfl
  | digest4 => exact .inl rfl
  | bufSize => exact .inl rfl

/-- A write that is answered wrote a register or IBUF (20_memory.md R201, 60_exceptions.md R830). -/
theorem busWrite_next {w : Width} {off : Nat} {v : Word} {s t : State} (h : busWrite w off v s = .next t) :
    (∃ r, locate s.cfg.bufBytes w off = .ok (.reg r) ∧ t = { s.writeReg r v with resp := .written }) ∨
    ∃ o, locate s.cfg.bufBytes w off = .ok (.buf .ibuf o) ∧
      t = { s.frozen { s with ibuf := s.ibuf.write o (laneBytes w.bytes v) } with resp := .written } := by
  simp only [busWrite] at h
  split at h
  · simp at h
  · next hl => exact .inl ⟨_, hl, (Host.Outcome.next.inj h).symm⟩
  · next hl => exact .inr ⟨_, hl, (Host.Outcome.next.inj h).symm⟩
  · simp at h

end Sys2Proof.Machine
end

