-- ==== Sys2Proof/Laws/Decode.lean ====
section
/-! SUPPORT. The laws of the command word. -/

namespace Sys2Proof

/-- A word is its two fields. -/
theorem word_fields (w : Word) : w = mbzField w ++ opField w := by
  apply BitVec.eq_of_getLsbD_eq
  intro i hi
  show w.getLsbD i = (mbzField w ++ opField w : BitVec (28 + 4)).getLsbD i
  rw [BitVec.getLsbD_append]
  by_cases h : i < 4
  · simp [h, opField]
  · have h1 : i - 4 < 28 := by omega
    have h2 : 4 + (i - 4) = i := by omega
    simp [h, h1, h2, mbzField]

/-- Decoding the encoded command (30_encoding.md R302). -/
theorem decode_encode (i : Instr) : decode (encode i) = .ok i := by cases i <;> decide

/-- What the opcode map gives, as one check over the sixteen opcodes. -/
theorem commandOfOp_spec (op : BitVec 4) :
    (match commandOfOp op with
      | .ok i => op == opOfCommand i && decide (op.toNat < 8)
      | .error _ => decide (8 ≤ op.toNat)) = true := by
  revert op; decide

theorem commandOfOp_ok {op : BitVec 4} {i : Instr} (h : commandOfOp op = .ok i) : op = opOfCommand i ∧ op.toNat < 8 := by
  simpa [h] using commandOfOp_spec op

theorem commandOfOp_error {op : BitVec 4} {e : BadWord} (h : commandOfOp op = .error e) : 8 ≤ op.toNat := by
  simpa [h] using commandOfOp_spec op

/-- Each command has one word (30_encoding.md R302). -/
theorem decode_ok_iff (w : Word) (i : Instr) : decode w = .ok i ↔ w = encode i := by
  constructor
  · intro h
    simp only [decode] at h
    split at h
    · next hm =>
      rw [word_fields w, hm, (commandOfOp_ok h).1]
      cases i <;> decide
    · simp at h
  · rintro rfl
    exact decode_encode i

/-- The words that are no command (30_encoding.md R305). -/
theorem decode_error_iff (w : Word) :
    (∃ e, decode w = .error e) ↔ 8 ≤ (opField w).toNat ∨ mbzField w ≠ 0 := by
  simp only [decode]
  split
  · next hm =>
    simp only [hm, ne_eq, not_true_eq_false, or_false]
    cases hc : commandOfOp (opField w) with
    | ok i => simpa using (commandOfOp_ok hc).2
    | error e => simpa using commandOfOp_error hc
  · next hm => exact ⟨fun _ => .inr hm, fun _ => ⟨_, rfl⟩⟩

end Sys2Proof
end

