-- ==== Sys2Proof/Laws/Frame.lean ====
section
/-! SUPPORT. The laws of the frame codec. -/

namespace Sys2Proof.Machine

@[simp] theorem extBytes_length (n : Nat) : (extBytes n).length = extLen (lengthIndicator n) := by
  simp only [extBytes, lengthIndicator, extLen]
  split
  · simp [*]
  · split <;> simp

/-- The header is as long as the decoder expects (30_encoding.md R313). -/
@[simp] theorem encodeHeader_length (h : BitVec 9) (key : Word) (n : Nat) :
    (encodeHeader h key n).length = hdrLen (lengthIndicator n) (hdrMasked h) := by
  simp only [encodeHeader, List.length_append, extBytes_length, hdrLen, List.length_cons, List.length_nil]
  split <;> simp

/-- The frame's length on the wire (30_encoding.md R319). -/
@[simp] theorem encodeFrame_length (h : BitVec 9) (key : Word) (p : List Byte) :
    (encodeFrame h key p).length = hdrLen (lengthIndicator p.length) (hdrMasked h) + p.length := by
  simp only [encodeFrame, List.length_append, encodeHeader_length]
  split <;> simp

theorem decodeFrame_cons (b0 b1 : Byte) (r : List Byte) :
    decodeFrame (b0 :: b1 :: r) = frameAt (b0 :: b1 :: r) b0 b1 := rfl

/-- FDEC's first check: two bytes are needed (R611). -/
theorem decodeFrame_short {f : List Byte} (h : f.length < 2) : decodeFrame f = none := by
  match f with
  | [] => rfl
  | [_] => rfl
  | _ :: _ :: _ => simp at h

/-- What a decoded frame is, and that its bytes were all there (R612). -/
theorem frameAt_some {f : List Byte} {b0 b1 : Byte} {fr : WireFrame} (h : frameAt f b0 b1 = some fr) :
    fr.wireLen ≤ f.length ∧ fr.payload.length + 2 ≤ fr.wireLen := by
  simp only [frameAt] at h
  split at h
  · simp at h
  · split at h
    · simp at h
    · rename_i hp
      simp only [not_lt] at hp
      simp only [Option.some.injEq] at h
      subst h
      have hs := slice_length _ _ _ hp
      refine ⟨hp, ?_⟩
      have : 2 ≤ hdrLen (b1.extractLsb' 0 7).toNat (b1.getLsbD 7) := by simp [hdrLen]; omega
      simp only
      split
      · rw [xorMask_length, hs]; omega
      · rw [hs]; omega

theorem decodeFrame_some {f : List Byte} {fr : WireFrame} (h : decodeFrame f = some fr) :
    fr.wireLen ≤ f.length ∧ fr.payload.length + 2 ≤ fr.wireLen := by
  match f with
  | [] => simp [decodeFrame] at h
  | [_] => simp [decodeFrame] at h
  | b0 :: b1 :: r => exact frameAt_some h

theorem lengthIndicator_lt (n : Nat) : lengthIndicator n < 128 := by
  simp only [lengthIndicator]; split
  · omega
  · split <;> omega

theorem maskBit_byte1 (m : Bool) (ind : Nat) : (BitVec.ofBool m ++ BitVec.ofNat 7 ind).getLsbD 7 = m := by
  rw [BitVec.getLsbD_append]; simp

theorem indicator_byte1 (m : Bool) (ind : Nat) (h : ind < 128) :
    ((BitVec.ofBool m ++ BitVec.ofNat 7 ind).extractLsb' 0 7).toNat = ind := by
  rw [BitVec.extractLsb'_append_eq_right, BitVec.toNat_ofNat]; omega

/-- A slice that is exactly the middle part. -/
theorem slice_mid (a b c : List Byte) (i n : Nat) (hi : i = a.length) (hn : n = b.length) :
    slice (a ++ (b ++ c)) i n = b := by
  subst hi hn; simp [slice]

/-- The length bytes the encoder writes give the payload length back (30_encoding.md R314, R315). -/
theorem payloadLength_encoded (b0 b1 : Byte) (n : Nat) (c : List Byte) (hn : n < 2 ^ 64) :
    payloadLength ([b0, b1] ++ (extBytes n ++ c)) (lengthIndicator n) = n := by
  simp only [payloadLength]
  rw [slice_mid [b0, b1] (extBytes n) c 2 _ rfl (by simp)]
  simp only [lengthIndicator, extBytes]
  by_cases h1 : n < 126
  · simp [h1]
  · by_cases h2 : n ≤ 65535
    · simp [h1, h2, fromBe_beBytes 2 n (by omega)]
    · simp [h1, h2, fromBe_beBytes 8 n (by omega)]

/-- Decoding an encoded frame, whatever follows it, gives the frame back (42_frame_codec.md R640, R615). -/
theorem decodeFrame_encodeFrame (h : BitVec 9) (key : Word) (p rest : List Byte) (hp : p.length < 2 ^ 64) :
    decodeFrame (encodeFrame h key p ++ rest) =
      some
        { hdr := h
          key := if hdrMasked h then key else 0
          payload := p
          wireLen := (encodeFrame h key p).length } := by
  have hl := encodeFrame_length h key p
  have hle : (encodeFrame h key p ++ rest).length = (encodeFrame h key p).length + rest.length := by simp
  have hform : encodeFrame h key p ++ rest =
      [hdrByte0 h, BitVec.ofBool (hdrMasked h) ++ BitVec.ofNat 7 (lengthIndicator p.length)] ++
        (extBytes p.length ++ ((if hdrMasked h then beBytes 4 key.toNat else []) ++
          ((if hdrMasked h then xorMask key p else p) ++ rest))) := by
    simp [encodeFrame, encodeHeader, List.append_assoc]
  have hpl := payloadLength_encoded (hdrByte0 h)
    (BitVec.ofBool (hdrMasked h) ++ BitVec.ofNat 7 (lengthIndicator p.length)) p.length
    ((if hdrMasked h then beBytes 4 key.toNat else []) ++ ((if hdrMasked h then xorMask key p else p) ++ rest)) hp
  have hind := indicator_byte1 (hdrMasked h) _ (lengthIndicator_lt p.length)
  have hbit := maskBit_byte1 (hdrMasked h) (lengthIndicator p.length)
  have hbody : slice (encodeFrame h key p ++ rest) (hdrLen (lengthIndicator p.length) (hdrMasked h)) p.length =
      if hdrMasked h then xorMask key p else p := by
    have h3 := slice_mid (encodeHeader h key p.length) (if hdrMasked h then xorMask key p else p) rest
      (hdrLen (lengthIndicator p.length) (hdrMasked h)) p.length (by simp) (by split <;> simp)
    simpa [encodeFrame, List.append_assoc] using h3
  have hkey : hdrMasked h = true →
      slice (encodeFrame h key p ++ rest) (2 + extLen (lengthIndicator p.length)) 4 = beBytes 4 key.toNat := by
    intro hm
    have h3 := slice_mid ([hdrByte0 h, BitVec.ofBool true ++ BitVec.ofNat 7 (lengthIndicator p.length)]
      ++ extBytes p.length) (beBytes 4 key.toNat) (xorMask key p ++ rest) (2 + extLen (lengthIndicator p.length)) 4
      (by simp; omega) (by simp)
    rw [hform, hm]
    simpa [List.append_assoc] using h3
  have hkey32 : BitVec.ofNat 32 (fromBe (beBytes 4 key.toNat)) = key := by
    rw [fromBe_beBytes 4 _ (by have := key.isLt; omega)]; simp
  have hdec : decodeFrame (encodeFrame h key p ++ rest) = frameAt (encodeFrame h key p ++ rest) (hdrByte0 h)
      (BitVec.ofBool (hdrMasked h) ++ BitVec.ofNat 7 (lengthIndicator p.length)) := by
    rw [hform]; rfl
  rw [← hform] at hpl
  rw [hdec]
  simp only [frameAt, hind, hbit, hpl, hbody]
  rw [if_neg (by omega), if_neg (by omega)]
  by_cases hm : hdrMasked h = true
  · simp only [hm, if_true] at hkey hl hbody ⊢
    rw [hkey trivial, hkey32, xorMask_xorMask, hl, ← hm, mkHdr_parts]
  · simp only [Bool.not_eq_true] at hm
    simp only [hm] at hl ⊢
    rw [hl, ← hm, mkHdr_parts]
    simp [hm]

end Sys2Proof.Machine
end

