-- ==== Sys2Proof/Laws/Sha1.lean ====
section
/-! SUPPORT. The laws of the SHA-1 engine. -/

namespace Sys2Proof.Machine

@[simp] theorem digestBytes_length (h : Digest) : (digestBytes h).length = 20 := by simp [digestBytes]

theorem extendW_length (k : Nat) (rev : List Word) : (extendW k rev).length = k + rev.length := by
  induction k generalizing rev with
  | zero => simp [extendW]
  | succ k ih => simp [extendW, ih]; omega

@[simp] theorem schedule_length (block : List Byte) : (schedule block).length = 80 := by
  simp [schedule, extendW_length, blockWords]

theorem rotl32_eq_rotateLeft (x : Word) (n : Nat) (h : n < 32) : rotl32 x n = x.rotateLeft n := by
  simp [rotl32, BitVec.rotateLeft, BitVec.rotateLeftAux, Nat.mod_eq_of_lt h]

/-- The working registers before each round, from the first on (R506). -/
theorem sha1Rounds_trace (ws : List Word) (t : Nat) (h : Digest) :
    ∃ r : Nat → Digest, r 0 = h ∧ (∀ k, k < ws.length → r (k + 1) = sha1Round (r k) (t + k) (ws.getD k 0)) ∧
      sha1Rounds t ws h = r ws.length := by
  induction ws generalizing t h with
  | nil => exact ⟨fun _ => h, rfl, by simp, rfl⟩
  | cons w ws ih =>
    obtain ⟨r, r0, rs, re⟩ := ih (t + 1) (sha1Round h t w)
    refine ⟨fun | 0 => h | n + 1 => r n, rfl, ?_, re⟩
    intro k hk
    cases k with
    | zero => simp [r0]
    | succ k =>
      simp only [List.length_cons, Nat.add_lt_add_iff_right] at hk
      simp only [rs k hk]
      congr 1
      omega

/-- The padded message has `(n + 8) div 64 + 1` blocks (R501). -/
theorem sha1Pad_length (m : List Byte) : (sha1Pad m).length = 64 * ((m.length + 8) / 64 + 1) := by
  simp [sha1Pad]; omega

end Sys2Proof.Machine
end

