-- ==== Sys2Proof/Laws/Exec.lean ====
section
/-! SUPPORT. What the completion of a command can do: the equations of each meaning under the conditions of its checks,
and one inversion lemma over all of them. -/

namespace Sys2Proof.Machine

/-! ### The two ends of a command -/

theorem complete_eq (s : State) (u : Bool) : complete s u = .next (s.finish .none u) := rfl

/-- A command error other than INVALID_CHARACTER is precise: STATUS and OUT_LEN only (60_exceptions.md R810). -/
theorem raiseError_precise {code : ErrCode} (s : State) (h : code ≠ .invalidCharacter) :
    raiseError code s = .next ({ s with outLen := 0 }.finish code false) := by
  simp [raiseError, h]

theorem raiseError_invalidCharacter (s : State) :
    raiseError .invalidCharacter s =
      .next ({ s with outLen := 0, obuf := s.obuf.write 0 s.spoilt }.finish .invalidCharacter false) := rfl

@[simp] theorem State.spoilt_length (s : State) : s.spoilt.length = 3 * (s.inLen.toNat / 4) := by simp [State.spoilt]

theorem withInput_ok {s : State} (h : s.inLen.toNat ≤ s.cfg.bufBytes)
    (k : List Byte → Host.Outcome State Fault Refusal) : withInput s k = k (s.memRead 0 s.inLen.toNat) := by
  simp [withInput, Nat.not_lt.mpr h]

theorem withInput_badLength {s : State} (h : s.cfg.bufBytes < s.inLen.toNat)
    (k : List Byte → Host.Outcome State Fault Refusal) : withInput s k = raiseError .badLength s := by
  simp [withInput, h]

/-! ### Each meaning under its checks -/

/-- The input a command reads. -/
abbrev State.input (s : State) : List Byte := s.memRead 0 s.inLen.toNat

theorem State.input_length (s : State) : s.input.length = s.inLen.toNat := by simp

variable {s : State}

theorem execB64e_ok (h : s.inLen.toNat ≤ s.cfg.bufBytes) (hc : 4 * ceilDiv s.inLen.toNat 3 ≤ s.cfg.bufBytes) :
    execB64e s = complete (s.deliver (b64Encode s.input)) false := by
  rw [execB64e, withInput_ok h, if_neg (by simpa using hc)]

theorem execB64e_capacity (h : s.inLen.toNat ≤ s.cfg.bufBytes) (hc : s.cfg.bufBytes < 4 * ceilDiv s.inLen.toNat 3) :
    execB64e s = raiseError .capacity s := by
  rw [execB64e, withInput_ok h, if_pos (by simpa using hc)]

theorem execB64d_badGroup (h : s.inLen.toNat ≤ s.cfg.bufBytes) (h4 : s.inLen.toNat % 4 ≠ 0) :
    execB64d s = raiseError .badLength s := by
  rw [execB64d, withInput_ok h, if_neg (by simpa using h4)]

theorem execB64d_some {out : List Byte} (h : s.inLen.toNat ≤ s.cfg.bufBytes) (h4 : s.inLen.toNat % 4 = 0)
    (hd : b64Decode s.input = some out) : execB64d s = complete (s.deliver out) false := by
  rw [execB64d, withInput_ok h, if_pos (by simpa using h4), hd]

theorem execB64d_none (h : s.inLen.toNat ≤ s.cfg.bufBytes) (h4 : s.inLen.toNat % 4 = 0)
    (hd : b64Decode s.input = none) : execB64d s = raiseError .invalidCharacter s := by
  rw [execB64d, withInput_ok h, if_pos (by simpa using h4), hd]

theorem execSha1_ok (h : s.inLen.toNat ≤ s.cfg.bufBytes) :
    execSha1 s = complete ({ s with digest := sha1Core s.input }.deliver (digestBytes (sha1Core s.input))) false := by
  rw [execSha1, withInput_ok h]

theorem execFdec_some {fr : WireFrame} (h : s.inLen.toNat ≤ s.cfg.bufBytes) (hd : decodeFrame s.input = some fr) :
    execFdec s =
      complete
        ({ s with
            frameHdr := fr.hdr
            payloadLen := BitVec.ofNat 32 fr.payload.length
            maskKey := fr.key
            wireLen := BitVec.ofNat 32 fr.wireLen }.deliver fr.payload)
        (reservedOpcode (hdrOpcode fr.hdr)) := by
  rw [execFdec, withInput_ok h, hd]

theorem execFdec_none (h : s.inLen.toNat ≤ s.cfg.bufBytes) (hd : decodeFrame s.input = none) :
    execFdec s = raiseError .truncatedFrame s := by
  rw [execFdec, withInput_ok h, hd]

/-- The wire length FENC computes (42_frame_codec.md R622). -/
abbrev State.fencWireLen (s : State) : Nat :=
  hdrLen (lengthIndicator s.inLen.toNat) (hdrMasked s.frameHdr) + s.inLen.toNat

theorem execFenc_ok (h : s.inLen.toNat ≤ s.cfg.bufBytes) (hc : s.fencWireLen ≤ s.cfg.bufBytes) :
    execFenc s =
      complete
        ({ s with payloadLen := BitVec.ofNat 32 s.inLen.toNat, wireLen := BitVec.ofNat 32 s.fencWireLen }.deliver
          (encodeFrame s.frameHdr s.maskKey s.input))
        false := by
  rw [execFenc, withInput_ok h]
  simp only [encodeHeader_length, State.memRead_length]
  rw [if_neg (by simpa using hc)]

theorem execFenc_capacity (h : s.inLen.toNat ≤ s.cfg.bufBytes) (hc : s.cfg.bufBytes < s.fencWireLen) :
    execFenc s = raiseError .capacity s := by
  rw [execFenc, withInput_ok h]
  simp only [encodeHeader_length, State.memRead_length]
  rw [if_pos (by simpa using hc)]

theorem execXmask_ok (h : s.inLen.toNat ≤ s.cfg.bufBytes) :
    execXmask s = complete (s.deliver (xorMask s.maskKey s.input)) false := by
  rw [execXmask, withInput_ok h]

theorem execAccept_ok (h : s.inLen.toNat ≤ s.cfg.bufBytes) :
    execAccept s =
      complete
        ({ s with digest := sha1Core (s.input ++ guidBytes) }.deliver
          (b64Encode (digestBytes (sha1Core (s.input ++ guidBytes)))))
        false := by
  rw [execAccept, withInput_ok h]

/-- The check every command but NOP begins with (60_exceptions.md R804). -/
theorem exec_badLength {i : Instr} (hn : i ≠ .nop) (h : s.cfg.bufBytes < s.inLen.toNat) :
    exec i s = raiseError .badLength s := by
  cases i with
  | nop => exact absurd rfl hn
  | b64e => rw [exec, execB64e, withInput_badLength h]
  | b64d => rw [exec, execB64d, withInput_badLength h]
  | sha1 => rw [exec, execSha1, withInput_badLength h]
  | fdec => rw [exec, execFdec, withInput_badLength h]
  | fenc => rw [exec, execFenc, withInput_badLength h]
  | xmask => rw [exec, execXmask, withInput_badLength h]
  | accept => rw [exec, execAccept, withInput_badLength h]

/-! ### All of them at once -/

/-- How a command can end successfully: what it delivers and the result registers it leaves. -/
structure Result where
  bytes : List Byte
  frameHdr : BitVec 9
  payloadLen : Word
  maskKey : Word
  wireLen : Word
  digest : Digest
  uopc : Bool

/-- The state a successful command other than NOP leaves. -/
def Result.apply (r : Result) (s : State) : State :=
  ({ s with
      frameHdr := r.frameHdr
      payloadLen := r.payloadLen
      maskKey := r.maskKey
      wireLen := r.wireLen
      digest := r.digest }.deliver r.bytes).finish .none r.uopc

/-- What the result registers of a successful command can be (10_state.md R126): FDEC alone writes FRAME_HDR, MASK_KEY
and UOPC, the frame commands the two lengths, SHA1 and ACCEPT the digest; the bytes fit in OBUF. -/
structure Result.Sound (r : Result) (i : Instr) (s : State) : Prop where
  not_nop : i ≠ .nop
  fits : s.cfg.wf = true → r.bytes.length ≤ s.cfg.bufBytes
  hdr : i ≠ .fdec → r.frameHdr = s.frameHdr
  key : i ≠ .fdec → r.maskKey = s.maskKey
  uopc : i ≠ .fdec → r.uopc = false
  plen : i ≠ .fdec → i ≠ .fenc → r.payloadLen = s.payloadLen
  wlen : i ≠ .fdec → i ≠ .fenc → r.wireLen = s.wireLen
  plen_le : s.payloadLen.toNat ≤ s.cfg.bufBytes → r.payloadLen.toNat ≤ s.cfg.bufBytes
  wlen_le : s.wireLen.toNat ≤ s.cfg.bufBytes → r.wireLen.toNat ≤ s.cfg.bufBytes
  dig : i ≠ .sha1 → i ≠ .accept → r.digest = s.digest

theorem wf_bounds {p : Params} (h : p.wf = true) : 128 ≤ p.bufBytes ∧ p.bufBytes ≤ 2 ^ 20 := by
  simp [Params.wf] at h; exact h.1

/-- Every completion is one of three: a command error, NOP, or a sound result. -/
theorem exec_cases (i : Instr) (s : State) :
    (∃ code, code ≠ .none ∧ exec i s = raiseError code s) ∨
    (i = .nop ∧ exec i s = complete s false) ∨
    ∃ r : Result, r.Sound i s ∧ exec i s = .next (r.apply s) := by
  by_cases hn : i = .nop
  · subst hn; exact .inr (.inl ⟨rfl, rfl⟩)
  by_cases hb : s.inLen.toNat ≤ s.cfg.bufBytes
  swap
  · exact .inl ⟨.badLength, by decide, exec_badLength hn (Nat.not_le.mp hb)⟩
  have h32 : ∀ n, n ≤ s.cfg.bufBytes → (BitVec.ofNat 32 n).toNat ≤ s.cfg.bufBytes := by
    intro n h; simp only [BitVec.toNat_ofNat]; exact (Nat.mod_le _ _).trans h
  cases i with
  | nop => exact absurd rfl hn
  | b64e =>
    by_cases hc : 4 * ceilDiv s.inLen.toNat 3 ≤ s.cfg.bufBytes
    · refine .inr (.inr ⟨⟨b64Encode s.input, s.frameHdr, s.payloadLen, s.maskKey, s.wireLen, s.digest, false⟩, ?_,
        execB64e_ok hb hc⟩)
      constructor <;> simp
      rw [b64Encode_length]
      simpa using fun _ => hc
    · exact .inl ⟨.capacity, by decide, execB64e_capacity hb (by omega)⟩
  | b64d =>
    by_cases h4 : s.inLen.toNat % 4 = 0
    · cases hd : b64Decode s.input with
      | none => exact .inl ⟨.invalidCharacter, by decide, execB64d_none hb h4 hd⟩
      | some out =>
        refine .inr (.inr ⟨⟨out, s.frameHdr, s.payloadLen, s.maskKey, s.wireLen, s.digest, false⟩, ?_,
          execB64d_some hb h4 hd⟩)
        have := b64Decode_length hd (by simpa using h4)
        simp only [State.memRead_length] at this
        constructor <;> simp
        omega
    · exact .inl ⟨.badLength, by decide, execB64d_badGroup hb h4⟩
  | sha1 =>
    refine .inr (.inr ⟨⟨digestBytes (sha1Core s.input), s.frameHdr, s.payloadLen, s.maskKey, s.wireLen,
      sha1Core s.input, false⟩, ?_, execSha1_ok hb⟩)
    constructor <;> simp
    intro hw
    have := wf_bounds hw
    omega
  | fdec =>
    cases hd : decodeFrame s.input with
    | none => exact .inl ⟨.truncatedFrame, by decide, execFdec_none hb hd⟩
    | some fr =>
      refine .inr (.inr ⟨⟨fr.payload, fr.hdr, BitVec.ofNat 32 fr.payload.length, fr.key, BitVec.ofNat 32 fr.wireLen,
        s.digest, reservedOpcode (hdrOpcode fr.hdr)⟩, ?_, execFdec_some hb hd⟩)
      have h1 := decodeFrame_some hd
      simp only [State.memRead_length] at h1
      constructor <;> simp
      · omega
      · exact fun _ => (Nat.mod_le _ _).trans (by omega)
      · exact fun _ => (Nat.mod_le _ _).trans (by omega)
  | fenc =>
    by_cases hc : s.fencWireLen ≤ s.cfg.bufBytes
    · refine .inr (.inr ⟨⟨encodeFrame s.frameHdr s.maskKey s.input, s.frameHdr, BitVec.ofNat 32 s.inLen.toNat,
        s.maskKey, BitVec.ofNat 32 s.fencWireLen, s.digest, false⟩, ?_, execFenc_ok hb hc⟩)
      constructor <;> simp
      · exact fun _ => hc
      · exact fun _ => hb
      · exact fun _ => (Nat.mod_le _ _).trans hc
    · exact .inl ⟨.capacity, by decide, execFenc_capacity hb (by omega)⟩
  | xmask =>
    refine .inr (.inr ⟨⟨xorMask s.maskKey s.input, s.frameHdr, s.payloadLen, s.maskKey, s.wireLen, s.digest, false⟩, ?_,
      execXmask_ok hb⟩)
    constructor <;> simp
    exact fun _ => hb
  | accept =>
    refine .inr (.inr ⟨⟨b64Encode (digestBytes (sha1Core (s.input ++ guidBytes))), s.frameHdr, s.payloadLen, s.maskKey,
      s.wireLen, sha1Core (s.input ++ guidBytes), false⟩, ?_, execAccept_ok hb⟩)
    constructor <;> simp
    rw [b64Encode_length, digestBytes_length]
    intro hw
    have := wf_bounds hw
    simp only [ceilDiv]; omega

end Sys2Proof.Machine
end

