-- ==== Sys2Proof/Laws/Step.lean ====
section
/-! SUPPORT. One step, by the agent that moves and by what it does. -/

namespace Sys2Proof.Machine

theorem step_host {s : State} (h : s.mover = .host) : step s = hostTurn { s with sched := s.sched.tail } := by
  simp [step, takeTurn, h]

theorem step_block {s : State} (h : s.mover = .block) : step s = blockTurn { s with sched := s.sched.tail } := by
  simp [step, takeTurn, h]

/-- With the schedule used up the block moves while BUSY (70_reset_and_hazards.md R920). -/
theorem mover_of_sched_nil {s : State} (h : s.sched = []) : s.mover = if s.busy then .block else .host := by
  simp [State.mover, h]

theorem runWord_ok {w : Word} {i : Instr} (h : decode w = .ok i) (s : State) : runWord w s = exec i s := by
  simp [runWord, h]

theorem runWord_error {w : Word} {e : BadWord} (h : decode w = .error e) (s : State) : runWord w s = execBadWord s := by
  simp [runWord, h]

/-- The block's turn is a completion or nothing (30_encoding.md R304). -/
theorem blockTurn_cases (s : State) :
    (s.inflight = none ∧ blockTurn s = .next s) ∨ (∃ w, s.inflight = some w ∧ blockTurn s = execBadWord s) ∨
    ∃ w i, s.inflight = some w ∧ decode w = .ok i ∧ blockTurn s = exec i s := by
  cases hi : s.inflight with
  | none => exact .inl ⟨rfl, by simp [blockTurn, hi]⟩
  | some w =>
    cases hd : decode w with
    | ok i => exact .inr (.inr ⟨w, i, rfl, hd, by simp [blockTurn, hi, runWord, hd]⟩)
    | error e => exact .inr (.inl ⟨w, rfl, by simp [blockTurn, hi, runWord, hd]⟩)

/-- The host's turn that ends in a next state: idle, a read, a write, a poll or the reset input. -/
theorem hostTurn_next {s t : State} (h : hostTurn s = .next t) :
    (s.host = [] ∧ t = s) ∨
    (∃ w addr rest off, s.host = .read w addr :: rest ∧ offsetOf s.cfg addr = some off ∧
      busRead w off { s with host := rest } = .next t) ∨
    (∃ w addr v rest off, s.host = .write w addr v :: rest ∧ offsetOf s.cfg addr = some off ∧
      busWrite w off v { s with host := rest } = .next t) ∨
    (∃ rest, s.host = .wait :: rest ∧
      t = { s with host := (if s.busy then .wait :: rest else rest), resp := .data s.statusWord }) ∨
    ∃ rest, s.host = .hardReset :: rest ∧ t = { s.hardwareReset with host := rest } := by
  simp only [hostTurn] at h
  split at h
  · next hh => exact .inl ⟨hh, (Host.Outcome.next.inj h).symm⟩
  · next w addr rest hh =>
    simp only [atAddress] at h
    split at h
    · simp at h
    · next off ho => exact .inr (.inl ⟨w, addr, rest, off, hh, ho, h⟩)
  · next w addr v rest hh =>
    simp only [atAddress] at h
    split at h
    · simp at h
    · next off ho => exact .inr (.inr (.inl ⟨w, addr, v, rest, off, hh, ho, h⟩))
  · next rest hh => exact .inr (.inr (.inr (.inl ⟨rest, hh, (Host.Outcome.next.inj h).symm⟩)))
  · next rest hh => exact .inr (.inr (.inr (.inr ⟨rest, hh, (Host.Outcome.next.inj h).symm⟩)))

/-- The word a step runs (log entry 13): with a word latched and the block to move, the step is its completion. -/
theorem step_withFetchWord (s : State) (nbits w : Nat) :
    step (s.withFetchWord nbits w) =
      runWord (BitVec.ofNat 32 (w % 2 ^ nbits))
        { s.issue (BitVec.ofNat 32 (w % 2 ^ nbits)) with sched := (blockFirst s.sched).tail } := by
  have hm : (s.withFetchWord nbits w).mover = .block := by
    simp only [State.withFetchWord, State.mover, blockFirst]
    rcases s.sched with _ | ⟨_ | _, _⟩ <;> simp [State.busy]
  rw [step_block hm]
  rfl

end Sys2Proof.Machine
end

