-- ==== Sys2Proof/Laws/Invariant.lean ====
section
/-! SUPPORT. What each operation keeps of the invariant of Safety.lean. -/

namespace Sys2Proof.Machine

/-- A command error keeps the invariant; INVALID_CHARACTER only comes with an input that fits (60_exceptions.md R815). -/
theorem raiseError_inv {s t : State} {code : ErrCode} (hi : s.Inv)
    (hb : s.inLen.toNat ≤ s.cfg.bufBytes ∨ code ≠ .invalidCharacter) (h : raiseError code s = .next t) : t.Inv := by
  have hf := hi.fresh
  by_cases hx : code = .invalidCharacter
  · subst hx
    rw [raiseError_invalidCharacter] at h
    cases h
    have hb : s.inLen.toNat ≤ s.cfg.bufBytes := by simpa using hb
    have hw : (s.obuf.write 0 s.spoilt).wf s.cfg.bufBytes :=
      Memory.wf_write hi.obuf_wf (by rw [State.spoilt_length]; omega)
    exact ⟨hi.cfg_legal, hi.ibuf_wf, hw, by simp, by simp, by simp, by simp, by simp, hi.payloadLen_le, hi.wireLen_le,
      by simp; omega⟩
  · rw [raiseError_precise s hx] at h
    cases h
    exact ⟨hi.cfg_legal, hi.ibuf_wf, hi.obuf_wf, by simp, by simp, by simp, by simp, by simp, hi.payloadLen_le,
      hi.wireLen_le, by simp; omega⟩

/-- A completion that writes no result (NOP) keeps the invariant. -/
theorem State.finish_inv {s : State} (hi : s.Inv) : (s.finish .none false).Inv := by
  have hf := hi.fresh
  exact ⟨hi.cfg_legal, hi.ibuf_wf, hi.obuf_wf, by simp, by simp, by simp, by simp, hi.outLen_le, hi.payloadLen_le,
    hi.wireLen_le, by simp; omega⟩

/-- A successful command keeps the invariant. -/
theorem Result.apply_inv {r : Result} {s : State} {i : Instr} (hr : r.Sound i s) (hi : s.Inv) : (r.apply s).Inv := by
  have hf := hr.fits hi.cfg_legal
  have hw : (s.obuf.write 0 r.bytes).wf s.cfg.bufBytes := Memory.wf_write hi.obuf_wf (by omega)
  have hd := hi.fresh
  refine ⟨hi.cfg_legal, hi.ibuf_wf, hw, by simp [Result.apply], by simp [Result.apply], by simp [Result.apply],
    by simp [Result.apply], ?_, hr.plen_le hi.payloadLen_le, hr.wlen_le hi.wireLen_le, by simp [Result.apply]; omega⟩
  simp only [Result.apply, State.finish_outLen, State.deliver_outLen, BitVec.toNat_ofNat, State.finish_cfg,
    State.deliver_cfg]
  exact (Nat.mod_le _ _).trans hf

/-- An input longer than IBUF is not scanned (60_exceptions.md R815). -/
theorem exec_ne_invalidCharacter {i : Instr} {s : State} (h : s.cfg.bufBytes < s.inLen.toNat) :
    exec i s ≠ raiseError .invalidCharacter s := by
  intro he
  by_cases hn : i = .nop
  · subst hn
    simp only [exec, execNop, complete, raiseError_invalidCharacter, Host.Outcome.next.injEq] at he
    have := congrArg (fun x : State => x.status.err) he
    simp at this
  · rw [exec_badLength hn h, raiseError_precise _ (by decide), raiseError_invalidCharacter] at he
    have := congrArg (fun x : State => x.status.err) (Host.Outcome.next.inj he)
    simp at this

theorem State.reset_inv_of {s : State} (hi : s.Inv) : s.softReset.Inv ∧ s.hardwareReset.Inv := by
  have hf := hi.fresh
  have hn := Memory.wf_nil s.cfg.bufBytes
  refine ⟨?_, ?_⟩
  · simp only [State.softReset]
    split
    · exact ⟨hi.cfg_legal, hi.ibuf_wf, hn, by simp [State.busy], by simp, by simp, by simp, by simp, by simp, by simp,
        by simp; omega⟩
    · exact ⟨hi.cfg_legal, hi.ibuf_wf, hi.obuf_wf, by simp [State.busy], by simp, by simp, by simp, by simp, by simp,
        by simp, hf⟩
  · exact ⟨hi.cfg_legal, hn, hn, by simp [State.busy], by simp, by simp, by simp, by simp, by simp, by simp, by simp⟩

/-- A register write keeps the invariant. -/
theorem State.writeReg_inv {s : State} (r : Reg) (v : Word) (hi : s.Inv) : (s.writeReg r v).Inv := by
  obtain ⟨h1, h2, h3, h4, h5, h6, h7, h8, h9, h10, h11⟩ := id hi
  rcases s.writeReg_cases r v with h | h | ⟨b, h⟩ | h | ⟨-, h⟩ | ⟨hb, h | h | h | h⟩ <;> rw [h]
  · exact hi
  · exact (State.reset_inv_of hi).1
  · exact ⟨h1, h2, h3, h4, h5, h6, h7, h8, h9, h10, h11⟩
  · refine ⟨h1, h2, h3, ?_, h5, h6, h7, h8, h9, h10, h11⟩
    simp only [State.acknowledge_status, Status.w1c_done, State.acknowledge_busy]
    intro hx
    exact h4 (by simp at hx; exact hx.1)
  · exact ⟨h1, h2, h3, h4, h5, h6, h7, h8, h9, h10, h11⟩
  · exact ⟨h1, h2, h3, by simp, by simp, by simp, by simp, h8, h9, h10, h11⟩
  · exact ⟨h1, h2, h3, h4, h5, h6, h7, h8, h9, h10, h11⟩
  · exact ⟨h1, h2, h3, h4, h5, h6, h7, h8, h9, h10, h11⟩
  · exact ⟨h1, h2, h3, h4, h5, h6, h7, h8, h9, h10, h11⟩

/-- The invariant does not read the host's side. -/
theorem State.Inv.withHost {s : State} (hi : s.Inv) (h : List HostOp) (sc : List Agent) (r : BusResp) :
    ({ s with host := h, sched := sc, resp := r } : State).Inv := by
  obtain ⟨h1, h2, h3, h4, h5, h6, h7, h8, h9, h10, h11⟩ := hi
  exact ⟨h1, h2, h3, h4, h5, h6, h7, h8, h9, h10, h11⟩

end Sys2Proof.Machine
end

