-- ==== Sys2Proof/Laws/PerInstr.lean ====
section
/-! SUPPORT. The statements made of every command as syntax, one lemma for each constructor. -/

namespace Sys2Proof.Laws.EncodeDecode

/-- A command is well formed, its word has MBZ = 0 and decodes to it alone (30_encoding.md R300, R302). -/
def Statement (i : Instr) : Prop :=
  i.wf = true ∧ mbzField (encode i) = 0 ∧ opField (encode i) = opOfCommand i ∧ ∀ j, decode (encode i) = .ok j ↔ j = i

theorem of_command (i : Instr) (h : mbzField (encode i) = 0 ∧ opField (encode i) = opOfCommand i) (hw : i.wf = true) :
    Statement i := by
  refine ⟨hw, h.1, h.2, fun j => ?_⟩
  rw [decode_encode]
  exact ⟨fun e => (Except.ok.inj e).symm, fun e => e ▸ rfl⟩

theorem nop : Statement .nop := of_command _ (by decide) rfl
theorem b64e : Statement .b64e := of_command _ (by decide) rfl
theorem b64d : Statement .b64d := of_command _ (by decide) rfl
theorem sha1 : Statement .sha1 := of_command _ (by decide) rfl
theorem fdec : Statement .fdec := of_command _ (by decide) rfl
theorem fenc : Statement .fenc := of_command _ (by decide) rfl
theorem xmask : Statement .xmask := of_command _ (by decide) rfl
theorem accept : Statement .accept := of_command _ (by decide) rfl

end Sys2Proof.Laws.EncodeDecode
end

