-- ==== Sys2Proof/Tests/Slice0.lean ====
section
/-! SUPPORT. The model's own tests: well-formedness smoke, decoding from words written out, the spec's test vectors
(spec/95_test_vectors.md) one step each, and for each obligation with hypotheses a concrete case that meets them. -/

open Sys2Proof Sys2Proof.Machine Sys2Proof.Claims

namespace Sys2Proof.Tests

/-- The reset state after the host has written these bytes to IBUF from 0 on and their count to IN_LEN. -/
def loaded (bs : List Byte) : State :=
  { State.reset with ibuf := cellsFrom 0 bs, inLen := BitVec.ofNat 32 bs.length }

/-- The least legal buffers, away from host address 0. -/
def smallCfg : Params := { bufBytes := 128, apertureBase := 0x400000 }

/-- The same with the least legal buffers. -/
def loadedSmall (bs : List Byte) : State := { loaded bs with cfg := smallCfg }

/-- A command word in flight. -/
def busyWith (w : Word) : State := { State.reset with inflight := some w }

/-- What a function reads of the next state. -/
def out {α : Type} (o : Host.Outcome State Fault Refusal) (f : State → α) : Option α :=
  match o with
  | .next t => some (f t)
  | .fault _ => none
  | .refused _ => none

/-- OBUF[0 : n). -/
def obufBytes (n : Nat) (s : State) : List Byte := (List.range n).map s.obufByte

/-- STATUS, OUT_LEN and OBUF[0 : OUT_LEN). -/
def outcome (s : State) : Word × Word × List Byte := (s.statusWord, s.outLen, obufBytes s.outLen.toNat s)

/-- One step of the block with a command word latched. -/
def completion (s : State) (w : Nat) : Host.Outcome State Fault Refusal := step (s.withFetchWord 32 w)

/-! ### Well-formedness -/

theorem test_every_command_wf : ∀ i ∈ [Instr.nop, .b64e, .b64d, .sha1, .fdec, .fenc, .xmask, .accept], i.wf = true := by
  decide

/-- The bounds of 00_scope.md R10 and the alignment of R11, at both ends. -/
theorem test_params_wf :
    Params.reference.wf = true ∧ smallCfg.wf = true ∧
    Params.wf { bufBytes := 2 ^ 20, apertureBase := 0 } = true := by decide

theorem test_params_refused :
    Params.wf { bufBytes := 127, apertureBase := 0 } = false ∧
    Params.wf { bufBytes := 2 ^ 20 + 1, apertureBase := 0 } = false ∧
    Params.wf { bufBytes := 128, apertureBase := 0x200000 } = false := by decide

/-! ### Decoding: the words of 30_encoding.md R300, R301, bit by bit -/

theorem test_decode_nop : decode 0b0000000000000000000000000000_0000 = .ok .nop := by decide
theorem test_decode_b64e : decode 0b0000000000000000000000000000_0001 = .ok .b64e := by decide
theorem test_decode_b64d : decode 0b0000000000000000000000000000_0010 = .ok .b64d := by decide
theorem test_decode_sha1 : decode 0b0000000000000000000000000000_0011 = .ok .sha1 := by decide
theorem test_decode_fdec : decode 0b0000000000000000000000000000_0100 = .ok .fdec := by decide
theorem test_decode_fenc : decode 0b0000000000000000000000000000_0101 = .ok .fenc := by decide
theorem test_decode_xmask : decode 0b0000000000000000000000000000_0110 = .ok .xmask := by decide
theorem test_decode_accept : decode 0b0000000000000000000000000000_0111 = .ok .accept := by decide

/-- 30_encoding.md R305; the words of 95_test_vectors.md L2.0. -/
theorem test_decode_rejects :
    decode 0x00000008 = .error .reservedOpcode ∧ decode 0x0000000F = .error .reservedOpcode ∧
    decode 0x00000011 = .error .nonzeroHighBits ∧ decode 0x80000001 = .error .nonzeroHighBits ∧
    decode 0xFFFFFFFF = .error .nonzeroHighBits := by decide

theorem test_encode :
    [Instr.nop, .b64e, .b64d, .sha1, .fdec, .fenc, .xmask, .accept].map encode = [0, 1, 2, 3, 4, 5, 6, 7] := by decide

/-! ### Commands: vectors of 95_test_vectors.md -/

/-- L2.0: NOP keeps OVR. -/
theorem test_nop_keeps_ovr :
    out (completion { State.reset with status := { Status.zero with ovr := true } } 0) State.statusWord =
      some 0x0000000A := by decide

/-- L2.0: NOP does not check IN_LEN. -/
theorem test_nop_ignores_in_len :
    out (completion { State.reset with inLen := 0x00020001 } 0) State.statusWord = some 0x00000002 := by decide

/-- L2.0: a legal OP with high bits set is not run. -/
theorem test_bad_word :
    out (completion { loaded [0x66] with outLen := 5 } 0x11) outcome = some (0x00000502, 0, []) := by decide

/-- L2.0: BAD_COMMAND comes before BAD_LENGTH. -/
theorem test_bad_command_first :
    out (completion { State.reset with inLen := 0x00020001 } 9) State.statusWord = some 0x00000502 := by decide

/-- L2.0: IN_LEN one above BUF_BYTES. -/
theorem test_bad_length :
    ∀ w ∈ [1, 2, 3, 4, 5, 6, 7],
      out (completion { loadedSmall [] with inLen := 129 } w) outcome = some (0x00000402, 0, []) := by decide

/-- L2.1. -/
theorem test_b64e_foob :
    out (completion (loaded (ascii "foob")) 1) outcome = some (0x00000002, 8, ascii "Zm9vYg==") := by decide

/-- L2.1: 97 bytes do not fit in 128. -/
theorem test_b64e_capacity :
    out (completion (loadedSmall (List.replicate 97 0x61)) 1) outcome = some (0x00000302, 0, []) := by decide

/-- L2.2: discarded bits are ignored. -/
theorem test_b64d_discards :
    out (completion (loaded (ascii "Zh==")) 2) outcome = some (0x00000002, 1, [0x66]) := by decide

/-- L2.2: an `=` that is not trailing. -/
theorem test_b64d_bad_padding :
    out (completion (loaded (ascii "Zg=a")) 2) outcome = some (0x00000202, 0, []) := by decide

/-- V-L1-2. -/
theorem test_sha1_abc :
    out (completion (loaded (ascii "abc")) 3) (fun t => (t.digest, t.outLen)) =
      some ({ h0 := 0xA9993E36, h1 := 0x4706816A, h2 := 0xBA3E2571, h3 := 0x7850C26C, h4 := 0x9CD0D89D }, 20) := by
  decide +kernel

/-- L2.3: 56 bytes, whose padding takes a second block. -/
theorem test_sha1_two_blocks :
    out (completion (loaded (List.replicate 56 0x61)) 3) State.digest =
      some { h0 := 0xC2DB330F, h1 := 0x6083854C, h2 := 0x99D4B5BF, h3 := 0xB6E8F29F, h4 := 0x201BE699 } := by
  decide +kernel

/-- L2.4: the masked "Hello". -/
theorem test_fdec_masked :
    out (completion (loaded [0x81, 0x85, 0x37, 0xFA, 0x21, 0x3D, 0x7F, 0x9F, 0x4D, 0x51, 0x58]) 4)
        (fun t => (outcome t, t.frameHdr, t.payloadLen, t.maskKey, t.wireLen)) =
      some ((0x00000002, 5, ascii "Hello"), 0x181, 5, 0x37FA213D, 11) := by decide

/-- L2.4: a 64-bit length of 2^64 - 1. -/
theorem test_fdec_longest_length :
    out (completion (loaded [0x82, 0x7F, 0xFF, 0xFF, 0xFF, 0xFF, 0xFF, 0xFF, 0xFF, 0xFF, 0x41]) 4)
        (fun t => (outcome t, t.frameHdr, t.wireLen)) =
      some ((0x00000102, 0, []), 0, 0) := by decide

/-- L2.5. -/
theorem test_fenc_masked :
    out (completion { loaded [0, 1, 2, 3, 4, 5] with frameHdr := 0x15B, maskKey := 0x01020304 } 5)
        (fun t => (outcome t, t.payloadLen, t.wireLen)) =
      some ((0x00000002, 12, [0x5B, 0x86, 1, 2, 3, 4, 1, 3, 1, 7, 5, 7]), 6, 12) := by decide

/-- L2.5: 126 bytes take the 16-bit form, and 130 bytes do not fit in 128. -/
theorem test_fenc_capacity :
    out (completion { loadedSmall (List.replicate 126 0) with frameHdr := 0x082 } 5)
        (fun t => (outcome t, t.payloadLen, t.wireLen)) =
      some ((0x00000302, 0, []), 0, 0) := by decide +kernel

/-- L2.6. -/
theorem test_xmask_cycles :
    out (completion { loaded [0, 0, 0, 0, 0, 0] with maskKey := 0x01020304 } 6) outcome =
      some (0x00000002, 6, [1, 2, 3, 4, 1, 2]) := by decide

/-- V-L1-4, the source's handshake vector. -/
theorem test_accept_vector :
    out (completion (loaded (ascii "dGhlIHNhbXBsZSBub25jZQ==")) 7) outcome =
      some (0x00000002, 28, ascii "s3pPLMBiTxaQ9kYGzzhZRbK+xOo=") := by decide +kernel

/-- 00_scope.md R14. -/
theorem test_guid : guidBytes = ascii "258EAFA5-E914-47DA-95CA-C5AB0DC85B11" := by decide

/-- 41_sha1.md R511: W[16..19], and a..e after round 0, of the block of "abc". -/
theorem test_sha1_intermediate :
    ((schedule (sha1Pad (ascii "abc"))).drop 16).take 4 = [0xC2C4C700, 0x00000000, 0x00000030, 0x85898E01] ∧
    sha1Round sha1Iv 0 ((schedule (sha1Pad (ascii "abc"))).getD 0 0) =
      { h0 := 0x0116FC33, h1 := 0x67452301, h2 := 0x7BF36AE2, h3 := 0x98BADCFE, h4 := 0x10325476 } := by decide +kernel

/-! ### The bus: 95_test_vectors.md L2.8 and 20_memory.md R205 -/

/-- `WR STATUS, 0xFFFFFFFF` with STATUS = 0x0000020A. -/
theorem test_status_w1c :
    out (busWrite .w32 0x04 0xFFFFFFFF
        { State.reset with status := { done := true, uopc := false, ovr := true, err := .invalidCharacter } })
        State.statusWord = some 0x00000200 := by decide

/-- While BUSY: `WR IN_LEN, 9`. -/
theorem test_in_len_frozen :
    out (busWrite .w32 0x0C 9 (busyWith 0)) (fun t => (t.statusWord, t.inLen)) = some (0x00000009, 0) := by decide

/-- `WR OUT_LEN, 7` is ignored, with no OVR. -/
theorem test_out_len_read_only :
    out (busWrite .w32 0x10 7 (busyWith 0)) (fun t => (t.statusWord, t.outLen)) = some (0x00000001, 0) := by decide

/-- Completion of NOP with IE = 1 raises IRQ. -/
theorem test_irq : out (completion { State.reset with ie := true } 0) State.irq = some true := by decide

/-- The four bus errors of L2.8, and the reserved register offset 0x3C. -/
theorem test_bus_errors :
    busRead .w8 0x04 State.reset = .fault (.busError .registerAccess) ∧
    busWrite .w32 0x200000 0 State.reset = .fault (.busError .obufWrite) ∧
    busRead .w16 0x100001 State.reset = .fault (.busError .bufferAccess) ∧
    busRead .w8 0x120000 State.reset = .fault (.busError .bufferAccess) ∧
    busRead .w32 0x3C State.reset = .fault (.busError .unmapped) := by
  refine ⟨rfl, rfl, rfl, rfl, rfl⟩

/-- R205: `WR32 IB+4, 0x3721FA37` stores 37 FA 21 37. -/
theorem test_write_lanes :
    out (busWrite .w32 0x100004 0x3721FA37 State.reset) State.ibuf =
      some [(4, 0x37), (5, 0xFA), (6, 0x21), (7, 0x37)] := by decide

/-- P2 line 7: `RD32 OB+0` of "Hello". -/
theorem test_read_lanes :
    out (busRead .w32 0x200000 { State.reset with obuf := cellsFrom 0 (ascii "Hello") }) State.resp =
      some (.data 0x6C6C6548) := by decide

/-- 30_encoding.md R331: `HDR(1,0,0,0,8,0)` is 0x088 (43_handshake_control.md R725). -/
theorem test_hdr : hdr true false false false 0x8 false = 0x088 := by decide

/-- 43_handshake_control.md R725, 95_test_vectors.md V-L1-7: the Close payload. -/
theorem test_close_payload :
    closePayload =
      [0x00, 0x01, 0x43, 0x6C, 0x6F, 0x73, 0x65, 0x20, 0x53, 0x6F, 0x63, 0x6B, 0x65, 0x74, 0x21] := by decide

/-- P3 line 7: `WRS IB+2, "Close Socket!"` begins with write8 @0x100002 data 43, and is 13 writes. -/
theorem test_wrs :
    (wrs Params.reference 2 "Close Socket!").head? = some (.write .w8 0x100002 0x43) ∧
    (wrs Params.reference 2 "Close Socket!").getLast? = some (.write .w8 0x10000E 0x21) ∧
    (wrs Params.reference 2 "Close Socket!").length = 13 := by decide

/-- 20_memory.md R208, 60_exceptions.md R853: a read of an IBUF byte nothing has written leaves the state, so the next one
agrees. -/
theorem test_unwritten_read_repeats :
    out (busRead .w8 0x100000 State.reset) (fun t => (t.draws, t.ibufEpoch)) = some (1, 0) := by decide

/-! ### Witnesses: for each obligation with hypotheses, cases that meet them -/

/-- BlockStepRunsTheLatchedCommand, EveryCompletionSetsDone. -/
theorem witness_block_step :
    (busyWith 3).mover = .block ∧ (busyWith 3).inflight = some 3 ∧ decode 3 = .ok .sha1 ∧
    (busyWith 8).mover = .block ∧ (busyWith 8).inflight = some 8 ∧ decode 8 = .error .reservedOpcode := by decide

/-- PlacedWordRunsNext. -/
theorem witness_placed_word : decodeTableWord 32 7 = some .accept := by decide

/-- HostStepMakesTheNextAccess: nothing left, a read, a write, a poll. -/
theorem witness_host_step :
    State.reset.mover = .host ∧ State.reset.host = [] ∧
    ({ State.reset with host := [.read .w8 0x200000] } : State).mover = .host ∧
    offsetOf Params.reference 0x200000 = some 0x200000 ∧
    ({ State.reset with host := [.write .w32 0x3FFFFF 1] } : State).mover = .host ∧
    offsetOf Params.reference 0x3FFFFF = some 0x3FFFFF ∧
    ({ busyWith 0 with host := [.wait], sched := [.host] } : State).mover = .host := by decide

/-- CmdWriteIssues, WrittenOperandsReadBack, BusyWindowReads: an idle and a busy state. -/
theorem witness_idle_and_busy :
    State.reset.busy = false ∧ (busyWith 5).busy = true ∧ State.reset.cfg.wf = true ∧
    out (busWrite .w32 0x08 5 State.reset) State.busy = some true := by decide

/-- BadWordCompletesWithBadCommand: the least reserved OP, the least word with high bits, and the greatest word. -/
theorem witness_bad_word :
    8 ≤ ((0x00000008 : Word).extractLsb' 0 4).toNat ∧ (0x00000010 : Word).extractLsb' 4 28 ≠ 0 ∧
    (0xFFFFFFFF : Word).extractLsb' 4 28 ≠ 0 ∧ (busyWith 0x10).inflight = some 0x10 ∧ (busyWith 0x10).mover = .block := by
  decide

/-- FrozenWriteSetsStickyOverrun, the write: the first and the last IBUF byte, in the least buffers. -/
theorem witness_frozen_write :
    ({ busyWith 4 with cfg := smallCfg } : State).busy = true ∧ smallCfg.wf = true ∧ 0 % Width.w32.bytes = 0 ∧
    0 + Width.w32.bytes ≤ 128 ∧ 127 % Width.w8.bytes = 0 ∧ 127 + Width.w8.bytes ≤ 128 := by decide

/-- A busy state with an overrun, whose host moves next. -/
def overrunState (op : HostOp) : State :=
  { busyWith 4 with status := { Status.zero with ovr := true }, sched := [.host], host := [op] }

/-- FrozenWriteSetsStickyOverrun, the steps: OVR stays over a completion, and a STATUS write, a soft reset and a hardware
reset clear it. -/
theorem witness_overrun_steps :
    out (step { overrunState .wait with sched := [] }) (fun t => t.status.ovr) = some true ∧
    out (step (overrunState (.write .w32 0x04 0x8))) (fun t => t.status.ovr) = some false ∧
    out (step (overrunState (.write .w32 0x00 0x2))) (fun t => t.status.ovr) = some false ∧
    out (step (overrunState .hardReset)) (fun t => t.status.ovr) = some false := by decide

/-- CtrlWriteTakesInterruptEnable: SRST 0 and 1. -/
theorem witness_ctrl_write : (0xFFFFFFFD : Word).getLsbD 1 = false ∧ (0x2 : Word).getLsbD 1 = true := by decide

/-- ReadOnlyRegistersIgnoreWrites, RegisterReadsFollowTheMap: the first and the last offset of the lists. -/
theorem witness_register_lists :
    0x10 ∈ [0x10, 0x18, 0x20, 0x24, 0x28, 0x2C, 0x30, 0x34, 0x38] ∧
    0x38 ∈ [0x10, 0x18, 0x20, 0x24, 0x28, 0x2C, 0x30, 0x34, 0x38] ∧ State.reset.readReg .cmd = 0 ∧
    State.reset.readReg .bufSize = 0x00020000 := by decide

/-- ReadsHaveNoSideEffects: an idle read at the end of OBUF, and in the BUSY window one at the end of IBUF. -/
theorem witness_read :
    State.reset.busy = false ∧ (out (busRead .w16 0x21FFFE State.reset) fun t => t.draws) = some 1 ∧
    (busyWith 4).busy = true ∧ (out (busRead .w16 0x11FFFE (busyWith 4)) fun t => t.draws) = some 1 := by decide

/-- DataWritesAreIdempotent: a register while BUSY, the last bytes of IBUF, and a CMD write. -/
theorem witness_idempotent :
    out (busWrite .w32 0x0C 9 (busyWith 4)) State.inLen = some 0 ∧
    out (busWrite .w16 (0x100000 + 0x1FFFE) 0xABCD State.reset) State.ibuf = some [(0x1FFFE, 0xCD), (0x1FFFF, 0xAB)] ∧
    State.reset.busy = false := by decide

/-- BusErrorsAreExactlyTheIllegalAccesses: each window at its ends, and just beyond them. -/
theorem witness_bus_errors :
    smallCfg.wf = true ∧ readAnswered 128 .w32 0x38 ∧ readAnswered 128 .w32 0x10007C ∧ readAnswered 128 .w8 0x20007F ∧
    writeAnswered 128 .w32 0x00 ∧ writeAnswered 128 .w16 0x100000 ∧ ¬ readAnswered 128 .w32 0x3C ∧
    ¬ readAnswered 128 .w16 0x38 ∧ ¬ readAnswered 128 .w32 0x10007E ∧ ¬ readAnswered 128 .w8 0x200080 ∧
    ¬ writeAnswered 128 .w8 0x200000 ∧ ¬ writeAnswered 128 .w32 0x100080 := by
  refine ⟨by decide, ?_⟩
  simp [readAnswered, writeAnswered, Width.bytes]

/-- BufferLanesAreLittleEndian, NarrowReadsAreZeroExtended, BusyWindowReads: the first and the last access of each width. -/
theorem witness_lanes :
    ∀ w ∈ [Width.w8, .w16, .w32],
      0 % w.bytes = 0 ∧ 0 + w.bytes ≤ 128 ∧ (128 - w.bytes) % w.bytes = 0 ∧ 128 - w.bytes + w.bytes ≤ 128 := by decide

/-- BusyWindowFreezesInputsAndResults: a frozen write, and both resets. -/
theorem witness_busy_step :
    (overrunState (.write .w32 0x0C 9)).busy = true ∧ (overrunState (.write .w32 0x0C 9)).mover = .host ∧
    out (step (overrunState (.write .w32 0x0C 9))) State.inLen = some 0 ∧
    out (step (overrunState (.write .w32 0x00 2))) State.inflight = some none ∧
    out (step (overrunState .hardReset)) State.inflight = some none := by decide

/-- AccessOutsideTheApertureIsRefused: the address below the aperture and the first above it. -/
theorem witness_outside :
    ({ State.reset with cfg := smallCfg, host := [.read .w32 0x3FFFFC] } : State).mover = .host ∧
    0x3FFFFC < smallCfg.apertureBase ∧ smallCfg.apertureBase + 0x400000 ≤ 0x800000 := by decide

/-- SoftResetAbandonsTheCommand: SRST with IE = 1 in the same write; idle and busy; the three ends of a command. -/
theorem witness_soft_reset :
    (0x3 : Word).getLsbD 1 = true ∧ State.reset.busy = false ∧ (busyWith 4).busy = true ∧
    out (step (overrunState .wait)) State.inflight = some (some 4) ∧
    out (step (busyWith 4)) State.inflight = some none ∧
    out (step (overrunState (.write .w32 0x00 3))) State.inflight = some none := by decide

/-- HardwareResetClearsTheBlock. -/
theorem witness_hard_reset : HardResets (overrunState .hardReset) := ⟨by decide, [], rfl⟩

/-- A state with DONE = 1, and the host's next operation. -/
def doneState (ie : Bool) (op : HostOp) : State :=
  { State.reset with ie := ie, status := { Status.zero with done := true }, host := [op] }

/-- InterruptFollowsDoneAndEnable: both rises and the five falls. -/
theorem witness_interrupt :
    out (step { busyWith 0 with ie := true }) State.irq = some true ∧
    out (step (doneState false (.write .w32 0x00 1))) State.irq = some true ∧
    out (step (doneState true (.write .w32 0x00 0))) State.irq = some false ∧
    out (step (doneState true (.write .w32 0x00 2))) State.irq = some false ∧
    out (step (doneState true (.write .w32 0x04 2))) State.irq = some false ∧
    out (step (doneState true (.write .w32 0x08 0))) State.irq = some false ∧
    out (step (doneState true .hardReset)) State.irq = some false := by decide

/-- The two clauses of HostWrites in those statements. -/
theorem witness_host_writes : HostWrites (doneState true (.write .w32 0x04 2)) 0x04 2 :=
  ⟨by decide, 0x04, [], rfl, by decide⟩

/-- A state with everything in it: both buffers listed, a command in flight, a host program. -/
def richState : State :=
  { loadedSmall (ascii "Zg==") with
    obuf := cellsFrom 0 [0x81, 0x00]
    outLen := 2
    wireLen := 2
    inflight := some 2
    host := [.write .w32 0x40000C 9, .wait, .read .w8 0x60007F]
    sched := [.host, .block] }

/-- StepKeepsTheInvariant. -/
theorem witness_invariant : richState.Inv ∧ (out (step richState) fun t => t.status.ovr) = some true := by
  refine ⟨⟨by decide, by decide, by decide, by decide, by decide, by decide, by decide, by decide, by decide, by decide,
    by decide⟩, by decide⟩

/-- LegalHostProgramsNeverStop, CommandInFlightEnds. -/
theorem witness_legal_host : richState.legalHost ∧ richState.busy = true := by
  unfold State.legalHost
  decide

/-- RunIssuesCompletesAndWaits. -/
theorem witness_run :
    (loaded [0x66]).busy = false ∧ (loaded [0x66]).sched = [] ∧
    ({ loaded [0x66] with host := run Params.reference .b64e ++ [.wait] } : State).host =
      run Params.reference .b64e ++ [.wait] ∧
    (out (exec .b64e { loaded [0x66] with host := [.wait, .wait], inflight := some (encode .b64e) }) outcome) =
      some (0x00000002, 4, ascii "Zg==") := by decide

/-- The fit of a Base64 text: the empty input, and 96 bytes in buffers of 128 (B64eWritesTheText, Base64RoundTrip). -/
theorem witness_b64e :
    smallCfg.wf = true ∧ 4 * ceilDiv (inCount (loadedSmall [])) 3 ≤ 128 ∧
    inCount (loadedSmall (List.replicate 96 0)) = 96 ∧ 4 * ceilDiv 96 3 = 128 := by decide

/-- B64dWritesTheBytes: the empty text, and one of two padding characters. -/
theorem witness_b64d :
    inCount (loadedSmall []) % 4 = 0 ∧ padOf (loadedSmall []) = 0 ∧ padOf (loadedSmall (ascii "Zg==")) = 2 ∧
    ∀ i, i < 2 → dec64 ((loadedSmall (ascii "Zg==")).ibufByte i) ≠ none := by decide

/-- B64dReportsAnInvalidCharacter: the `=` of "A===" that is no padding. -/
theorem witness_b64d_invalid :
    inCount (loadedSmall (ascii "A===")) = 4 ∧ padOf (loadedSmall (ascii "A===")) = 2 ∧
    dec64 ((loadedSmall (ascii "A===")).ibufByte 1) = none := by decide

/-- Base64RoundTrip: the second state, with the text copied. -/
theorem witness_b64_round_trip :
    out (exec .b64e (loadedSmall [0x66])) outcome = some (0x00000002, 4, ascii "Zg==") ∧
    (loadedSmall (ascii "Zg==")).cfg = (loadedSmall [0x66]).cfg ∧ (loadedSmall (ascii "Zg==")).inLen = 4 := by decide

/-- Sha1WritesTheDigest, AcceptWritesTheAcceptText, XmaskAppliesTheCyclicKey: an input of exactly BUF_BYTES, and one byte
more. -/
theorem witness_input_fits :
    inCount { loadedSmall [] with inLen := 128 } ≤ smallCfg.bufBytes ∧
    smallCfg.bufBytes < inCount { loadedSmall [] with inLen := 129 } := by decide

/-- Sha1ScheduleRecurrence: a block of 64 bytes, and both ends of each range. -/
theorem witness_schedule : (sha1Pad []).length = 64 ∧ 0 < 16 ∧ 15 < 16 ∧ 16 ≤ 16 ∧ 16 ≤ 79 ∧ 79 ≤ 79 := by decide

/-- Sha1CompressesBlockByBlock: the first and the last round of each group. -/
theorem witness_rounds :
    fTable 0 1 2 3 = fTable 19 1 2 3 ∧ kTable 20 = kTable 39 ∧ kTable 40 = kTable 59 ∧ kTable 60 = kTable 79 ∧ 79 < 80 := by
  decide

/-- Base64AlphabetIsTheTable: the ends of the ranges. -/
theorem witness_alphabet :
    [0, 25, 26, 51, 52, 61, 62, 63].map (fun v => enc64 (BitVec.ofNat 6 v)) = ascii "AZaz09+/" := by decide

/-- FdecDecodesOneFrame, FdecFlagsReservedOpcodes: the shortest frame, and a masked one with a reserved opcode. -/
theorem witness_whole_frame :
    WholeFrame (loadedSmall [0x81, 0x00]) ∧ WholeFrame (loadedSmall [0x0B, 0x83, 0, 0, 0, 1, 0x41, 0x42, 0x43]) := by
  unfold WholeFrame
  decide

/-- FdecReportsTruncation: one byte short at each of the three checks. -/
theorem witness_truncated :
    inCount (loadedSmall [0x81]) < 2 ∧
    inCount (loadedSmall [0x81, 0x7E, 0x00]) < wireHl (loadedSmall [0x81, 0x7E, 0x00]) ∧
    inCount (loadedSmall [0x81, 0x01]) <
      wireHl (loadedSmall [0x81, 0x01]) + wirePlen (loadedSmall [0x81, 0x01]) := by decide

/-- FencBuildsOneFrame, FrameRoundTrip: a masked frame of exactly BUF_BYTES, unmasked ones in the 16-bit and the 64-bit
form. -/
theorem witness_fenc :
    fencLen { loadedSmall [] with inLen := 122, frameHdr := 0x182 } = 128 ∧
    hdrM { State.reset with frameHdr := 0x182 } = true ∧
    fencLen { State.reset with inLen := 65535 } = 65539 ∧ fencLen { State.reset with inLen := 65536 } = 65546 ∧
    65546 ≤ State.reset.cfg.bufBytes := by decide

/-- FrameRoundTrip, MaskingIsItsOwnInverse: the second state, with the bytes copied. -/
theorem witness_copies :
    out (exec .fenc { loadedSmall [0x41] with frameHdr := 0x0F3 }) outcome = some (0x00000002, 3, [0xF3, 0x01, 0x41]) ∧
    (loadedSmall [0xF3, 0x01, 0x41]).inLen = 3 ∧
    out (exec .xmask { loadedSmall [0x48] with maskKey := 0x37FA213D }) outcome = some (0x00000002, 1, [0x7F]) ∧
    (loadedSmall [0x7F]).inLen = 1 := by decide

/-- InputLengthIsChecked: both reasons. -/
theorem witness_bad_length :
    Instr.accept ≠ .nop ∧ smallCfg.bufBytes < inCount { loadedSmall [] with inLen := 129 } ∧
    inCount (loadedSmall (ascii "Zm9")) % 4 ≠ 0 := by decide

/-- OutputsThatDoNotFitAreRefused: the least inputs that do not fit in 128. -/
theorem witness_capacity :
    128 < 4 * ceilDiv (inCount (loadedSmall (List.replicate 97 0))) 3 ∧
    inCount { loadedSmall [] with inLen := 125, frameHdr := 0x182 } ≤ 128 ∧
    128 < fencLen { loadedSmall [] with inLen := 123, frameHdr := 0x182 } := by decide

/-- CommandErrorsArePrecise: a precise error, and INVALID_CHARACTER. -/
theorem witness_errors :
    out (runWord 4 (loadedSmall [0x81])) (fun t => t.status.err) = some .truncatedFrame ∧
    out (runWord 2 (loadedSmall (ascii "A==="))) (fun t => t.status.err) = some .invalidCharacter := by decide

/-- CommandsWriteOnlyTheirResults: one successful command of each kind the statement tells apart. -/
theorem witness_successes :
    out (exec .nop (loadedSmall [])) (fun t => t.status.err) = some .none ∧
    out (exec .xmask (loadedSmall [])) (fun t => t.status.err) = some .none ∧
    out (exec .fdec (loadedSmall [0x81, 0x00])) (fun t => t.status.err) = some .none ∧
    out (exec .fenc (loadedSmall [])) (fun t => t.status.err) = some .none := by decide

theorem witness_success_sha1 : out (exec .sha1 (loadedSmall [])) (fun t => t.status.err) = some .none := by
  decide +kernel

/-- ResultsDependOnlyOnTheFrozenInputs: two states that differ outside the inputs. -/
theorem witness_same_inputs :
    (loadedSmall [0x41]).ibuf = ({ loadedSmall [0x41] with obuf := [(0, 1)], outLen := 9, ie := true } : State).ibuf ∧
    decode 6 = .ok .xmask ∧
    out (runWord 6 (loadedSmall [0x41])) outcome = some (0x00000002, 1, [0x41]) ∧
    out (runWord 6 { loadedSmall [0x41] with obuf := [(0, 1)], outLen := 9, ie := true }) outcome =
      some (0x00000002, 1, [0x41]) := by decide

end Sys2Proof.Tests
end

section
/-! PROOFS. The state family: a frozen write in the BUSY window and the stickiness of OVR (10_state.md R107), and CTRL
(10_state.md R102). -/

namespace Sys2Proof.Machine

open Sys2Proof.Claims

/-! ### Frozen writes in the BUSY window -/

/-- The registers a host write leaves alone while BUSY (R107). -/
def frozenRegs : List Reg := [.cmd, .inLen, .frameHdr, .maskKey]

theorem State.writeReg_frozen_busy {s : State} {r : Reg} (v : Word) (hr : r ∈ frozenRegs) (h : s.busy = true) :
    s.writeReg r v = s.overrun := by
  simp only [frozenRegs, List.mem_cons, List.not_mem_nil, or_false] at hr
  obtain rfl | rfl | rfl | rfl := hr <;> exact State.frozen_busy h

theorem busWrite_frozenRegs_busy {s : State} {r : Reg} (v : Word) (hr : r ∈ frozenRegs) (h : s.busy = true) :
    busWrite .w32 r.offset v s = .next { s.overrun with resp := .written } := by
  rw [busWrite_reg, State.writeReg_frozen_busy v hr h]

theorem busWrite_ibuf_busy {s : State} {w : Width} {o : Nat} (v : Word) (hz : s.cfg.bufBytes ≤ 2 ^ 20)
    (ha : o % w.bytes = 0) (hs : o + w.bytes ≤ s.cfg.bufBytes) (h : s.busy = true) :
    busWrite w (0x100000 + o) v s = .next { s.overrun with resp := .written } := by
  rw [busWrite_ibuf v hz ha hs, State.frozen_busy h]

/-! ### What each operation leaves of OVR -/

@[simp] theorem State.softReset_status (s : State) : s.softReset.status = Status.zero := by
  unfold State.softReset
  split <;> rfl

theorem State.frozen_keeps_ovr {s t : State} (h : t.status.ovr = true) : (s.frozen t).status.ovr = true := by
  cases hb : s.busy with
  | false => rwa [State.frozen_idle hb]
  | true => rw [State.frozen_busy hb, State.overrun_status]

theorem State.writeCtrl_srst (s : State) {v : Word} (h : v.getLsbD 1 = true) : s.writeCtrl v = s.softReset := if_pos h

theorem State.writeCtrl_enable (s : State) {v : Word} (h : v.getLsbD 1 = false) :
    s.writeCtrl v = { s with ie := v.getLsbD 0 } :=
  if_neg (ne_true_of_eq_false h)

/-- Only a soft reset and the W1C write of STATUS bit 3 clear OVR (R107). -/
theorem State.writeReg_keeps_ovr {s : State} (r : Reg) (v : Word) (h : s.status.ovr = true) :
    (s.writeReg r v).status.ovr = true ∨ (r = .ctrl ∧ v.getLsbD 1 = true) ∨ (r = .status ∧ v.getLsbD 3 = true) := by
  cases r with
  | ctrl =>
    cases h1 : v.getLsbD 1 with
    | true => exact .inr (.inl ⟨rfl, rfl⟩)
    | false =>
      left
      rwa [State.writeReg, State.writeCtrl_enable s h1]
  | status =>
    cases h3 : v.getLsbD 3 with
    | true => exact .inr (.inr ⟨rfl, rfl⟩)
    | false =>
      left
      rw [State.writeReg, State.acknowledge_status, Status.w1c_ovr, h, h3]
      rfl
  | cmd | inLen | frameHdr | maskKey => exact .inl (State.frozen_keeps_ovr h)
  | outLen | payloadLen | wireLen | digest0 | digest1 | digest2 | digest3 | digest4 | bufSize => exact .inl h

theorem busWrite_keeps_ovr {w : Width} {off : Nat} {v : Word} {s t : State} (h : busWrite w off v s = .next t)
    (ho : s.status.ovr = true) :
    t.status.ovr = true ∨ (w = .w32 ∧ off = 0x00 ∧ v.getLsbD 1 = true) ∨
      (w = .w32 ∧ off = 0x04 ∧ v.getLsbD 3 = true) := by
  obtain ⟨r, hl, rfl⟩ | ⟨o, -, rfl⟩ := busWrite_next h
  · obtain ⟨rfl, rfl⟩ := locate_reg_offset hl
    obtain hk | ⟨rfl, h1⟩ | ⟨rfl, h3⟩ := State.writeReg_keeps_ovr r v ho
    · exact .inl hk
    · exact .inr (.inl ⟨rfl, rfl, h1⟩)
    · exact .inr (.inr ⟨rfl, rfl, h3⟩)
  · exact .inl (State.frozen_keeps_ovr ho)

theorem raiseError_ovr {code : ErrCode} {s t : State} (h : raiseError code s = .next t) :
    t.status.ovr = s.status.ovr := by
  by_cases hc : code = .invalidCharacter
  · subst hc
    rw [raiseError_invalidCharacter] at h
    cases h
    rfl
  · rw [raiseError_precise s hc] at h
    cases h
    rfl

theorem exec_ovr {i : Instr} {s t : State} (h : exec i s = .next t) : t.status.ovr = s.status.ovr := by
  obtain ⟨code, -, he⟩ | ⟨-, he⟩ | ⟨r, -, he⟩ := exec_cases i s
  · exact raiseError_ovr (he ▸ h)
  · rw [he, complete_eq] at h
    cases h
    rfl
  · rw [he] at h
    cases h
    rfl

/-- No completion writes OVR (30_encoding.md R304, R107). -/
theorem blockTurn_ovr {s t : State} (h : blockTurn s = .next t) : t.status.ovr = s.status.ovr := by
  obtain ⟨-, he⟩ | ⟨w, -, he⟩ | ⟨w, i, -, -, he⟩ := blockTurn_cases s
  · rw [he] at h
    cases h
    rfl
  · exact raiseError_ovr (he ▸ h)
  · exact exec_ovr (he ▸ h)

/-- OVR is sticky: a step that does not keep it is a reset or the host's W1C write of it (R107). -/
theorem step_keeps_ovr {s t : State} (h : step s = .next t) (ho : s.status.ovr = true) :
    t.status.ovr = true ∨ Resets s ∨ ∃ v, v.getLsbD 3 = true ∧ HostWrites s 0x04 v := by
  cases hm : s.mover with
  | block =>
    rw [step_block hm] at h
    exact .inl ((blockTurn_ovr h).trans ho)
  | host =>
    rw [step_host hm] at h
    obtain ⟨-, rfl⟩ | ⟨w, addr, rest, off, -, -, hr⟩ | ⟨w, addr, v, rest, off, hh, ha, hw⟩ | ⟨rest, -, rfl⟩ |
      ⟨rest, hh, -⟩ := hostTurn_next h
    · exact .inl ho
    · obtain ⟨x, d, rfl, -⟩ := busRead_next hr
      exact .inl ho
    · obtain hk | ⟨rfl, rfl, h1⟩ | ⟨rfl, rfl, h3⟩ := busWrite_keeps_ovr hw ho
      · exact .inl hk
      · exact .inr (.inl (.inr ⟨v, h1, hm, addr, rest, hh, ha⟩))
      · exact .inr (.inr ⟨v, h3, hm, addr, rest, hh, ha⟩)
    · exact .inl ho
    · exact .inr (.inl (.inl ⟨hm, rest, hh⟩))

/-- Settles O9: a frozen write in the BUSY window is `State.overrun` alone, and every step keeps OVR but for the two
clearing events. -/
theorem frozenWriteSetsStickyOverrun : Obligations.FrozenWriteSetsStickyOverrun := by
  refine ⟨fun s v hb => ⟨fun off hoff => ?_, fun w o hcfg ha hs => ?_⟩, fun s t => step_keeps_ovr⟩
  · obtain ⟨r, hr, rfl⟩ : ∃ r ∈ frozenRegs, r.offset = off := List.mem_map.mp hoff
    exact busWrite_frozenRegs_busy v hr hb
  · exact busWrite_ibuf_busy v (wf_bounds hcfg).2 ha hs hb

/-! ### CTRL -/

theorem State.writeCtrl_ovr {s : State} {v : Word} (h : (s.writeCtrl v).status.ovr = true) : s.status.ovr = true := by
  cases h1 : v.getLsbD 1 with
  | true =>
    rw [State.writeCtrl_srst s h1, State.softReset_status] at h
    exact absurd h Bool.false_ne_true
  | false => rwa [State.writeCtrl_enable s h1] at h

/-- Settles O12: the write to CTRL is `State.writeCtrl`, by its two cases on SRST, in any state. -/
theorem ctrlWriteTakesInterruptEnable : Obligations.CtrlWriteTakesInterruptEnable := by
  refine ⟨rfl, fun s v => ⟨busRead_reg s .ctrl, rfl, _, busWrite_reg s .ctrl v, fun h => ?_, fun h => ?_, ?_⟩⟩
  · rw [State.writeReg, State.writeCtrl_enable s h]
  · rw [State.writeReg, State.writeCtrl_srst s h]
  · exact State.writeCtrl_ovr

end Sys2Proof.Machine
end

section
/-! PROOFS. The memory family: the byte lanes of a buffer access (20_memory.md R204). -/

namespace Sys2Proof.Machine

open Sys2Proof.Claims

/-! ### The bus at a buffer -/

/-- An aligned read inside either buffer is answered with its data word (20_memory.md R203). -/
theorem busRead_buffer {s : State} {w : Width} {o : Nat} (b : Buf) (hz : s.cfg.bufBytes ≤ 2 ^ 20)
    (ha : o % w.bytes = 0) (hs : o + w.bytes ≤ s.cfg.bufBytes) :
    busRead w (bufOffset b o) s =
      .next { s with resp := .data (s.bufWord b w o), draws := s.drawsAfterRead b } := by
  cases b with
  | ibuf => exact busRead_ibuf hz ha hs
  | obuf => exact busRead_obuf hz ha hs

theorem busWrite_ibuf_idle {s : State} {w : Width} {o : Nat} (v : Word) (hz : s.cfg.bufBytes ≤ 2 ^ 20)
    (ha : o % w.bytes = 0) (hs : o + w.bytes ≤ s.cfg.bufBytes) (h : s.busy = false) :
    busWrite w (0x100000 + o) v s =
      .next { s with ibuf := s.ibuf.write o (laneBytes w.bytes v), resp := .written } := by
  rw [busWrite_ibuf v hz ha hs, State.frozen_idle h]

/-! ### The lanes of a write -/

theorem Memory.get_write_laneBytes (m : Memory) (o : Nat) (v : Word) {n k : Nat} (hk : k < n) :
    (m.write o (laneBytes n v)).get (o + k) = some (v.extractLsb' (8 * k) 8) := by
  rw [Memory.get_write_inside (by rwa [laneBytes_length])]
  simp [laneBytes]

/-- A listed byte of IBUF reads as its value, by the host and by a command alike. -/
theorem State.ibuf_reads_of_get {s : State} {a : Nat} {b : Byte} (h : s.ibuf.get a = some b) :
    s.ibufCell a = b ∧ s.ibufByte a = b := by
  simp [State.ibufCell, State.ibufByte, h]

/-- How a byte of IBUF reads turns on its own cell and the two counters alone. -/
theorem State.ibuf_reads_congr {s t : State} {a : Nat} (hg : t.ibuf.get a = s.ibuf.get a)
    (he : t.ibufEpoch = s.ibufEpoch) (hd : t.draws = s.draws) :
    t.ibufCell a = s.ibufCell a ∧ t.ibufByte a = s.ibufByte a := by
  simp [State.ibufCell, State.ibufByte, hg, he, hd]

/-- Settles O18: a read's data word has the lanes of `State.bufWord`, and an idle IBUF write is `Memory.write` of the
lanes, read back inside the run and outside it. -/
theorem bufferLanesAreLittleEndian : Obligations.BufferLanesAreLittleEndian := by
  intro s w o hcfg ha hs
  have hz : s.cfg.bufBytes ≤ 2 ^ 20 := (wf_bounds hcfg).2
  refine ⟨fun b => ⟨_, _, busRead_buffer b hz ha hs, (s.bufWord_lanes b w o).1⟩, fun hb v => ?_⟩
  refine ⟨_, busWrite_ibuf_idle v hz ha hs hb, fun k hk => ?_, fun a hout => ?_, rfl⟩
  · exact State.ibuf_reads_of_get (Memory.get_write_laneBytes s.ibuf o v hk)
  · exact State.ibuf_reads_congr (Memory.get_write_outside (by rwa [laneBytes_length])) rfl rfl

end Sys2Proof.Machine
end

section
/-! PROOFS. The encoding family: the words that select a command (30_encoding.md R302), and the write to CMD (R303). -/

namespace Sys2Proof.Machine

open Sys2Proof.Claims

/-! ### Command words -/

/-- The words that are a command, as the complement of those the decoder rejects (R302, R305). -/
theorem decode_ok_exists_iff (w : Word) :
    (∃ i, decode w = .ok i) ↔ (opField w).toNat ≤ 7 ∧ mbzField w = 0 := by
  have hcompl : (∃ i, decode w = .ok i) ↔ ¬ ∃ e, decode w = .error e := by
    cases decode w with
    | ok i => simp
    | error e => simp
  rw [hcompl, decode_error_iff, not_or, not_le, not_not, Nat.lt_succ_iff]

/-- Settles O1: each command has the one word `encode` gives it, and the other words are those the decoder rejects. -/
theorem commandWordsSelectTheEightCommands : Obligations.CommandWordsSelectTheEightCommands := fun w =>
  ⟨decode_ok_iff w .nop, decode_ok_iff w .b64e, decode_ok_iff w .b64d, decode_ok_iff w .sha1, decode_ok_iff w .fdec,
    decode_ok_iff w .fenc, decode_ok_iff w .xmask, decode_ok_iff w .accept, decode_ok_exists_iff w⟩

/-! ### The write to CMD -/

theorem busWrite_cmd_idle {s : State} (w : Word) (h : s.busy = false) :
    busWrite .w32 Reg.cmd.offset w s = .next { s.issue w with resp := .written } := by
  rw [busWrite_reg, State.writeReg, State.frozen_idle h]

theorem busWrite_cmd_busy {s : State} (w : Word) (h : s.busy = true) :
    busWrite .w32 Reg.cmd.offset w s = .next { s.overrun with resp := .written } :=
  busWrite_frozenRegs_busy w (by simp [frozenRegs]) h

/-- Settles O6: a write to CMD is `State.issue` while idle and `State.overrun` while BUSY. -/
theorem cmdWriteIssues : Obligations.CmdWriteIssues := fun _ w =>
  ⟨fun h => ⟨_, busWrite_cmd_idle w h, rfl, rfl⟩, fun h => ⟨_, busWrite_cmd_busy w h, rfl⟩⟩

end Sys2Proof.Machine
end

section
/-! PROOFS. The Base64 family: the decode table against the alphabet (40_base64.md R402). -/

namespace Sys2Proof.Machine

/-! ### The decode table -/

/-- The character codes of `enc64` as numbers: no range wraps around the byte (R401). -/
theorem enc64_toNat (v : BitVec 6) :
    (enc64 v).toNat = if v.toNat < 26 then 0x41 + v.toNat else if v.toNat < 52 then 0x61 + (v.toNat - 26)
      else if v.toNat < 62 then 0x30 + (v.toNat - 52) else if v.toNat = 62 then 0x2B else 0x2F := by
  simp only [enc64]
  split_ifs
  case pos | pos | pos => rw [BitVec.toNat_ofNat]; omega
  all_goals rfl

/-- The alphabet is ASCII (R401). -/
theorem enc64_lt_128 (v : BitVec 6) : (enc64 v).toNat < 128 := by
  rw [enc64_toNat]
  split_ifs <;> omega

/-- Each range of the decode table is the range of the alphabet its index comes from (R401, R402). -/
theorem eq_enc64_of_dec64 {c : Byte} {v : BitVec 6} (h : dec64 c = some v) : c = enc64 v := by
  apply BitVec.eq_of_toNat_eq
  rw [enc64_toNat]
  simp only [dec64] at h
  split_ifs at h with hupper hlower hdigit hplus hslash <;> cases h
  -- letters and digits: the index is below 64, and falls in one range of `enc64` only
  case pos | pos | pos => rw [BitVec.toNat_ofNat]; split_ifs <;> omega
  · exact hplus
  · exact hslash

theorem dec64_eq_some_iff (c : Byte) (v : BitVec 6) : dec64 c = some v ↔ c = enc64 v :=
  ⟨eq_enc64_of_dec64, fun h => h ▸ dec64_enc64 v⟩

/-- A byte outside the alphabet is invalid. -/
theorem dec64_eq_none_of_ne_enc64 {c : Byte} (h : ∀ v, c ≠ enc64 v) : dec64 c = none :=
  Option.eq_none_iff_forall_ne_some.mpr fun v hv => h v (eq_enc64_of_dec64 hv)

/-- Settles O33: the table inverts the alphabet, and neither `=` nor a byte of 128 or more is in the alphabet. -/
theorem base64DecodeTableInvertsTheAlphabet : Obligations.Base64DecodeTableInvertsTheAlphabet := by
  refine ⟨dec64_eq_some_iff, dec64_eq_none_of_ne_enc64 fun v h => enc64_ne_pad v h.symm, fun c hc => ?_⟩
  refine dec64_eq_none_of_ne_enc64 fun v h => ?_
  have hv := enc64_lt_128 v
  rw [← h] at hv
  omega

end Sys2Proof.Machine
end

section
/-! PROOFS. The SHA-1 family: the padding of a message (41_sha1.md R501). -/

namespace Sys2Proof.Machine

/-- The number of zero bytes in the padding of an `n`-byte message, as `sha1Pad` computes it. -/
def sha1PadZeros (n : Nat) : Nat := (119 - n % 64) % 64

theorem sha1Pad_eq (m : List Byte) :
    sha1Pad m = m ++ [0x80] ++ List.replicate (sha1PadZeros m.length) 0x00 ++ beBytes 8 (8 * m.length) := rfl

/-- The zeros leave exactly the eight bytes of the length field in the last block: 119 is 56 - 1 + 64. -/
theorem add_sha1PadZeros_mod (n : Nat) : (n + 1 + sha1PadZeros n) % 64 = 56 := by
  unfold sha1PadZeros
  omega

/-- A residue below the modulus is the least solution of its congruence. -/
theorem add_mod_ne_of_lt_sha1PadZeros {n k : Nat} (hk : k < sha1PadZeros n) : (n + 1 + k) % 64 ≠ 56 := by
  intro h
  have hlt : sha1PadZeros n < 64 := Nat.mod_lt _ (by decide)
  have hsolves := add_sha1PadZeros_mod n
  omega

/-- Settles O38: the padding's zero count is the least residue that leaves room for the length field. -/
theorem sha1PaddingIsFips : Obligations.Sha1PaddingIsFips := fun m =>
  ⟨sha1PadZeros m.length, add_sha1PadZeros_mod _, fun _ hk => add_mod_ne_of_lt_sha1PadZeros hk, sha1Pad_eq m,
    sha1Pad_length m⟩

end Sys2Proof.Machine
end

section
/-! PROOFS. The frame codec family: what a successful command leaves, byte by byte, and with it FDEC's UOPC
(42_frame_codec.md R616), the frame FENC builds (R620, R621) and XMASK (R630). -/

namespace Sys2Proof.Machine

open Sys2Proof.Claims

/-! ### What a completion leaves, in the words of the statements -/

theorem raiseError_failed {code : ErrCode} (s : State) (h : code ≠ .invalidCharacter) :
    raiseError code s = .next (failed s code) :=
  raiseError_precise s h

section
variable (r : Result) (s : State)

theorem Result.apply_completed : Completed s (r.apply s) .none r.uopc := ⟨rfl, rfl⟩

theorem Result.apply_inputsKept : InputsKept s (r.apply s) := ⟨rfl, rfl, rfl, rfl, rfl, rfl, rfl, rfl, rfl⟩

/-- The bound holds of every buffer: BUF_BYTES is at most 2^20 (00_scope.md R10). -/
theorem Result.apply_outLen (h : r.bytes.length ≤ 2 ^ 20) : (r.apply s).outLen.toNat = r.bytes.length := by
  simp only [Result.apply, State.finish_outLen, State.deliver_outLen, BitVec.toNat_ofNat]
  omega

theorem Result.apply_obufByte {a : Nat} {b : Byte} (h : r.bytes[a]? = some b) : (r.apply s).obufByte a = b := by
  obtain ⟨ha, hb⟩ := List.getElem?_eq_some_iff.mp h
  rw [Result.apply, State.obufByte_finish, State.obufByte_deliver, dif_pos ha, hb]

theorem Result.apply_obufKept : ObufKeptFrom r.bytes.length s (r.apply s) := by
  intro a ha
  rw [Result.apply, State.obufByte_finish, State.obufByte_deliver, dif_neg (Nat.not_lt.mpr ha)]
  rfl

end

/-! ### The bytes of IBUF a command reads -/

theorem State.memRead_getElem? (s : State) (i : Nat) {n k : Nat} (h : k < n) :
    (s.memRead i n)[k]? = some (s.ibufByte (i + k)) := by
  simp [State.memRead, h]

theorem State.input_getElem? {s : State} {i : Nat} (h : i < inCount s) : s.input[i]? = some (s.ibufByte i) := by
  simpa using s.memRead_getElem? 0 h

/-- IN_LEN counts in a register's width. -/
theorem State.ofNat_inCount (s : State) : BitVec.ofNat 32 (inCount s) = s.inLen := by
  rw [BitVec.ofNat_toNat, BitVec.setWidth_eq]

theorem State.memRead_succ (s : State) (i n : Nat) :
    s.memRead i (n + 1) = s.ibufByte i :: s.memRead (i + 1) n := by
  simp [State.memRead, List.range_succ_eq_map, Function.comp_def, Nat.add_assoc, Nat.add_comm 1]

theorem State.slice_memRead (s : State) {i n m : Nat} (h : i + n ≤ m) :
    slice (s.memRead 0 m) i n = s.memRead i n := by
  apply List.ext_getElem
  · simp [slice]; omega
  · intro k h₁ h₂
    simp [slice, State.memRead_getElem]

theorem State.fromBe_memRead (s : State) (i n : Nat) : fromBe (s.memRead i n) = ibufNumber s i n := by
  simp [fromBe, State.memRead, ibufNumber, List.foldl_map]

/-! ### FDEC on a whole frame -/

theorem wireHl_eq (s : State) : wireHl s = hdrLen (wireL s) (wireMasked s) := rfl

/-- The frame at the start of IBUF, as the spec's formulas give it (42_frame_codec.md R610, R613). -/
def wireFrame (s : State) : WireFrame where
  hdr := mkHdr (wireMasked s) (s.ibufByte 0)
  key := wireKey s
  payload :=
    if wireMasked s then xorMask (wireKey s) (s.memRead (wireHl s) (wirePlen s)) else s.memRead (wireHl s) (wirePlen s)
  wireLen := wireHl s + wirePlen s

theorem payloadLength_input {s : State} (h : 2 + ext (wireL s) ≤ inCount s) :
    payloadLength s.input (wireL s) = wirePlen s := by
  have hs : slice s.input 2 (ext (wireL s)) = s.memRead 2 (ext (wireL s)) := s.slice_memRead h
  simp only [payloadLength, wirePlen]
  split
  · rfl
  · rw [← State.fromBe_memRead, ← hs]; rfl

/-- The mask key the decoder loads; an unmasked frame has the key 0 (R613). -/
theorem maskKey_input {s : State} (h : wireHl s ≤ inCount s) :
    (if wireMasked s then BitVec.ofNat 32 (fromBe (slice s.input (2 + extLen (wireL s)) 4)) else 0) = wireKey s := by
  cases hm : wireMasked s with
  | false => simp [wireKey, hm]
  | true =>
    have hfit : 2 + extLen (wireL s) + 4 ≤ inCount s := by simpa [wireHl_eq, hdrLen, hm] using h
    rw [State.input, State.slice_memRead s hfit, State.fromBe_memRead]
    simp [wireKey, hm]; rfl

theorem frameAt_input {s : State} (h : wireHl s + wirePlen s ≤ inCount s) :
    frameAt s.input (s.ibufByte 0) (s.ibufByte 1) = some (wireFrame s) := by
  have hM : (s.ibufByte 1).getLsbD 7 = wireMasked s := rfl
  have hL : ((s.ibufByte 1).extractLsb' 0 7).toNat = wireL s := rfl
  have hhl : wireHl s ≤ inCount s := by omega
  have hext : 2 + ext (wireL s) ≤ inCount s := by unfold wireHl at hhl; omega
  have hbody : slice s.input (wireHl s) (wirePlen s) = s.memRead (wireHl s) (wirePlen s) := s.slice_memRead h
  simp only [frameAt, hM, hL, ← wireHl_eq, payloadLength_input hext, maskKey_input hhl, hbody]
  rw [if_neg (by simpa using hhl), if_neg (by simpa using h)]
  rfl

theorem decodeFrame_input {s : State} (h : 2 ≤ inCount s) :
    decodeFrame s.input = frameAt s.input (s.ibufByte 0) (s.ibufByte 1) := by
  obtain ⟨n, hn⟩ := Nat.exists_eq_add_of_le' h
  have hform : s.input = s.ibufByte 0 :: s.ibufByte 1 :: s.memRead 2 n := by
    rw [State.input, show s.inLen.toNat = n + 2 from hn, State.memRead_succ, State.memRead_succ]
  rw [hform, decodeFrame_cons]

/-- What FDEC leaves of the frame in IBUF. -/
def fdecResult (s : State) : Result where
  bytes := (wireFrame s).payload
  frameHdr := (wireFrame s).hdr
  payloadLen := BitVec.ofNat 32 (wireFrame s).payload.length
  maskKey := (wireFrame s).key
  wireLen := BitVec.ofNat 32 (wireFrame s).wireLen
  digest := s.digest
  uopc := reservedOpcode (hdrOpcode (wireFrame s).hdr)

theorem exec_fdec_wholeFrame {s : State} (h : WholeFrame s) : exec .fdec s = .next ((fdecResult s).apply s) := by
  obtain ⟨hfits, htwo, hwhole⟩ := h
  rw [exec, execFdec_some hfits ((decodeFrame_input htwo).trans (frameAt_input hwhole))]
  rfl

/-- The header's opcode is that of wire byte 0 (30_encoding.md R311). -/
theorem hdrOpcode_mkHdr (m : Bool) (b : Byte) : hdrOpcode (mkHdr m b) = b.extractLsb' 0 4 := by
  have hsub : ∀ h : BitVec 9, hdrOpcode h = (hdrByte0 h).extractLsb' 0 4 := fun h => by
    simp [hdrOpcode, hdrByte0]
  rw [hsub, hdrByte0_mkHdr]

theorem reservedOpcode_iff (opcode : BitVec 4) :
    reservedOpcode opcode = true ↔ opcode.toNat ∈ [0x3, 0x4, 0x5, 0x6, 0x7, 0xB, 0xC, 0xD, 0xE, 0xF] := by
  revert opcode
  decide

/-- Settles O42: FDEC's header is byte 0 under the mask bit, and its UOPC is `reservedOpcode` of that header. -/
theorem fdecFlagsReservedOpcodes : Obligations.FdecFlagsReservedOpcodes := fun _ _ hw =>
  ⟨_, exec_fdec_wholeFrame hw, rfl, hdrOpcode_mkHdr _ _, reservedOpcode_iff _⟩

/-! ### XMASK -/

theorem xorMask_getElem? {key : Word} {p : List Byte} {i : Nat} {b : Byte} (h : p[i]? = some b) :
    (xorMask key p)[i]? = some (b ^^^ maskByte key (i % 4)) := by
  simp [xorMask, h]

/-- What XMASK leaves: the masked input, every register as it was. -/
def xmaskResult (s : State) : Result where
  bytes := xorMask s.maskKey s.input
  frameHdr := s.frameHdr
  payloadLen := s.payloadLen
  maskKey := s.maskKey
  wireLen := s.wireLen
  digest := s.digest
  uopc := false

theorem xmaskResult_bytes_length (s : State) : (xmaskResult s).bytes.length = inCount s := by simp [xmaskResult]

theorem exec_xmask {s : State} (h : inCount s ≤ s.cfg.bufBytes) : exec .xmask s = .next ((xmaskResult s).apply s) :=
  execXmask_ok h

/-- Settles O46: XMASK delivers `xorMask` of its input, and its only error is that of its length check. -/
theorem xmaskAppliesTheCyclicKey : Obligations.XmaskAppliesTheCyclicKey := by
  refine ⟨decode_encode .xmask, fun s _ => ⟨fun hfits => ?_, fun hlong => ?_⟩⟩
  · have hkept := (xmaskResult s).apply_obufKept s
    rw [xmaskResult_bytes_length] at hkept
    refine ⟨_, exec_xmask hfits, Result.apply_completed _ s, Result.apply_inputsKept _ s, ⟨rfl, rfl⟩, ⟨rfl, rfl⟩, rfl,
      ?_, fun i hi => Result.apply_obufByte _ s (xorMask_getElem? (State.input_getElem? hi)), hkept⟩
    show BitVec.ofNat 32 (xmaskResult s).bytes.length = s.inLen
    rw [xmaskResult_bytes_length, State.ofNat_inCount]
  · rw [exec_badLength (by decide) hlong, raiseError_failed s (by decide)]

/-! ### The layout of an encoded frame (42_frame_codec.md R620, R621) -/

theorem beBytes_getElem? {n k : Nat} (v : Nat) (h : k < n) :
    (beBytes n v)[k]? = some (BitVec.ofNat 8 (v >>> (8 * (n - 1 - k)))) := by
  simp [beBytes, h]

/-- The key on the wire is big-endian: MASK_KEY[31:24] first (30_encoding.md R318). -/
theorem beBytes_key_getElem? (key : Word) {k : Nat} (h : k < 4) :
    (beBytes 4 key.toNat)[k]? = some (maskByte key k) := by
  rw [beBytes_getElem? _ h, show 8 * (4 - 1 - k) = 24 - 8 * k by omega]
  rfl

/-- The statements' count of extended-length bytes is the codec's. -/
theorem extFor_eq (n : Nat) : extFor n = extLen (lengthIndicator n) := by
  simp only [extFor, lengthIndicator, extLen]
  split_ifs <;> omega

theorem extBytes_eq (n : Nat) : extBytes n = beBytes (extFor n) n := by
  simp only [extBytes, extFor]
  split_ifs <;> rfl

/-- The payload's place on the wire: after the header. -/
theorem hdrLen_lengthIndicator (n : Nat) (m : Bool) :
    hdrLen (lengthIndicator n) m = 2 + extFor n + (if m then 4 else 0) := by
  rw [hdrLen, extFor_eq]

section
variable (h : BitVec 9) (key : Word) {p : List Byte} {n : Nat} (hn : p.length = n)
include hn

theorem encodeFrame_byte1 : (encodeFrame h key p)[1]? =
    some (BitVec.ofBool (hdrMasked h) ++ BitVec.ofNat 7 (lengthIndicator n)) := by
  subst hn
  rfl

theorem encodeFrame_extended {k : Nat} (hk : k < extFor n) :
    (encodeFrame h key p)[2 + k]? = some (BitVec.ofNat 8 (n >>> (8 * (extFor n - 1 - k)))) := by
  subst hn
  rw [encodeFrame, encodeHeader, extBytes_eq, List.append_assoc, List.append_assoc,
    List.getElem?_append_right (by simp), List.getElem?_append_left (by simpa using hk), ← beBytes_getElem? _ hk]
  simp

theorem encodeFrame_key (hm : hdrMasked h = true) {k : Nat} (hk : k < 4) :
    (encodeFrame h key p)[2 + extFor n + k]? = some (maskByte key k) := by
  subst hn
  have hlen : ([hdrByte0 h, BitVec.ofBool (hdrMasked h) ++ BitVec.ofNat 7 (lengthIndicator p.length)] ++
      extBytes p.length).length = 2 + extFor p.length := by
    rw [List.length_append, extBytes_length, extFor_eq]
    rfl
  rw [encodeFrame, encodeHeader, if_pos hm, List.append_assoc, List.getElem?_append_right (by omega), hlen,
    Nat.add_sub_cancel_left, List.getElem?_append_left (by simpa using hk), beBytes_key_getElem? key hk]

theorem encodeFrame_payload {i : Nat} {b : Byte} (hi : p[i]? = some b) :
    (encodeFrame h key p)[hdrLen (lengthIndicator n) (hdrMasked h) + i]? =
      some (b ^^^ maskOf (hdrMasked h) key i) := by
  subst hn
  rw [encodeFrame, List.getElem?_append_right (by simp), encodeHeader_length, Nat.add_sub_cancel_left]
  cases hdrMasked h with
  | false => simpa [maskOf] using hi
  | true => exact xorMask_getElem? hi

end

/-! ### FENC -/

/-- What FENC leaves: the frame, and the lengths of its payload and of itself. -/
def fencResult (s : State) : Result where
  bytes := encodeFrame s.frameHdr s.maskKey s.input
  frameHdr := s.frameHdr
  payloadLen := BitVec.ofNat 32 (inCount s)
  maskKey := s.maskKey
  wireLen := BitVec.ofNat 32 (fencLen s)
  digest := s.digest
  uopc := false

/-- The statements' wire length is the one FENC checks and records (42_frame_codec.md R622). -/
theorem fencLen_eq (s : State) : fencLen s = s.fencWireLen := by
  rw [State.fencWireLen, hdrLen_lengthIndicator]
  rfl

theorem fencResult_bytes_length (s : State) : (fencResult s).bytes.length = fencLen s := by
  simp [fencResult, fencLen_eq]

theorem exec_fenc {s : State} (hfits : inCount s ≤ s.cfg.bufBytes) (hwire : fencLen s ≤ s.cfg.bufBytes) :
    exec .fenc s = .next ((fencResult s).apply s) := by
  rw [fencLen_eq] at hwire
  rw [exec, execFenc_ok hfits hwire, ← fencLen_eq]
  rfl

/-- Settles O44: each byte of the statement is a place of the encoded frame, read through FENC's delivery. -/
theorem fencBuildsOneFrame : Obligations.FencBuildsOneFrame := by
  intro s hcfg hfits hwire
  have hbuf : s.cfg.bufBytes ≤ 2 ^ 20 := (wf_bounds hcfg).2
  have hout := (fencResult s).apply_outLen s (by rw [fencResult_bytes_length]; omega)
  have hkept := (fencResult s).apply_obufKept s
  rw [fencResult_bytes_length] at hout hkept
  have hat : ∀ {a : Nat} {b : Byte}, (encodeFrame s.frameHdr s.maskKey s.input)[a]? = some b →
      ((fencResult s).apply s).obufByte a = b := (fencResult s).apply_obufByte s
  have hbyte1 := hat (encodeFrame_byte1 _ _ s.input_length)
  refine ⟨_, exec_fenc hfits hwire, Result.apply_completed _ s, Result.apply_inputsKept _ s, ⟨rfl, rfl⟩, rfl,
    s.ofNat_inCount, ?_, hout, hat rfl, ?_, ?_, fun k hk => hat (encodeFrame_extended _ _ s.input_length hk),
    fun hm k hk => hat (encodeFrame_key _ _ s.input_length hm hk), fun i hi => ?_, hkept⟩
  · show (BitVec.ofNat 32 (fencLen s)).toNat = fencLen s
    rw [BitVec.toNat_ofNat, Nat.mod_eq_of_lt (by omega)]
  · rw [hbyte1, maskBit_byte1]
    rfl
  · rw [hbyte1, indicator_byte1 _ _ (lengthIndicator_lt _)]
    rfl
  · rw [fencLen_eq, State.fencWireLen, Nat.add_sub_cancel]
    exact hat (encodeFrame_payload _ _ s.input_length (State.input_getElem? hi))

end Sys2Proof.Machine
end

section
/-! PROOFS. The handshake and control family: NOP (43_handshake_control.md R710), and the words that are no command
(R712). -/

namespace Sys2Proof.Machine

open Sys2Proof.Claims

/-! ### The block's step -/

theorem blockTurn_inflight {s : State} {w : Word} (h : s.inflight = some w) : blockTurn s = runWord w s := by
  rw [blockTurn, h]

/-- The block's step runs the latched word, its turn taken off the schedule (30_encoding.md R304). -/
theorem step_inflight {s : State} {w : Word} (hi : s.inflight = some w) (hm : s.mover = .block) :
    step s = runWord w { s with sched := s.sched.tail } := by
  rw [step_block hm]
  exact blockTurn_inflight hi

/-! ### Words that are no command -/

/-- BAD_COMMAND is a precise error: STATUS, and OUT_LEN 0 (R712, 60_exceptions.md R810). -/
theorem execBadWord_eq (s : State) : execBadWord s = .next (failed s .badCommand) :=
  raiseError_failed s (by decide)

theorem runWord_bad {w : Word} (h : 8 ≤ (opField w).toNat ∨ mbzField w ≠ 0) (s : State) :
    runWord w s = .next (failed s .badCommand) := by
  obtain ⟨e, he⟩ := (decode_error_iff w).mpr h
  rw [runWord_error he, execBadWord_eq]

/-- Settles O7: the write to CMD issues whatever the word, and the block's step runs a word the decoder rejects. -/
theorem badWordCompletesWithBadCommand : Obligations.BadWordCompletesWithBadCommand := by
  intro s w hbad
  refine ⟨busWrite_cmd_idle w, fun hi hm => ?_⟩
  rw [step_inflight hi hm, runWord_bad hbad]

/-! ### NOP -/

/-- NOP is the completion alone (R710). -/
theorem exec_nop (s : State) : exec .nop s = .next (s.finish .none false) := by
  rw [exec, execNop, complete_eq]

/-- Settles O31: word 0 encodes NOP, whose completion is `State.finish` with no error. -/
theorem nopWritesOnlyStatus : Obligations.NopWritesOnlyStatus :=
  ⟨decode_encode .nop, exec_nop⟩

end Sys2Proof.Machine
end

section
/-! PROOFS. The exceptions family: BAD_LENGTH (60_exceptions.md R804), CAPACITY (R803), TRUNCATED_FRAME (R806), and what
every completion with an error commits (R810). -/

namespace Sys2Proof.Machine

open Sys2Proof.Claims

/-! ### BAD_LENGTH -/

/-- A text of broken groups is BAD_LENGTH whether or not it fits: both causes have the one code (R804, R815). -/
theorem exec_b64d_badGroup {s : State} (h4 : inCount s % 4 ≠ 0) : exec .b64d s = raiseError .badLength s := by
  by_cases hfits : inCount s ≤ s.cfg.bufBytes
  · exact execB64d_badGroup hfits h4
  · exact exec_badLength (by decide) (Nat.not_le.mp hfits)

/-- Settles O49: either cause is a precise error, raised before any byte of IBUF has a part. -/
theorem inputLengthIsChecked : Obligations.InputLengthIsChecked := by
  rintro i s (⟨hi, hlong⟩ | ⟨rfl, h4⟩)
  · rw [exec_badLength hi hlong, raiseError_failed s (by decide)]
  · rw [exec_b64d_badGroup h4, raiseError_failed s (by decide)]

/-! ### CAPACITY -/

/-- Settles O50: the capacity check of each encoder comes before its delivery. -/
theorem outputsThatDoNotFitAreRefused : Obligations.OutputsThatDoNotFitAreRefused := by
  refine fun s hfits => ⟨fun hc => ?_, fun hc => ?_⟩
  · rw [exec, execB64e_capacity hfits hc, raiseError_failed s (by decide)]
  · rw [fencLen_eq] at hc
    rw [exec, execFenc_capacity hfits hc, raiseError_failed s (by decide)]

/-! ### TRUNCATED_FRAME -/

/-- The second and the third check (42_frame_codec.md R612). The extended length is read only where the header is whole,
so the payload length the third check compares is the one the statement computes from IBUF. -/
theorem frameAt_input_truncated {s : State} (h : inCount s < wireHl s + wirePlen s) :
    frameAt s.input (s.ibufByte 0) (s.ibufByte 1) = none := by
  have hM : (s.ibufByte 1).getLsbD 7 = wireMasked s := rfl
  have hL : ((s.ibufByte 1).extractLsb' 0 7).toNat = wireL s := rfl
  simp only [frameAt, hM, hL, ← wireHl_eq, State.input_length]
  by_cases hhl : inCount s < wireHl s
  · rw [if_pos hhl]
  · have hext : 2 + ext (wireL s) ≤ inCount s := by unfold wireHl at hhl; omega
    rw [if_neg hhl, payloadLength_input hext, if_pos h]

theorem decodeFrame_input_truncated {s : State} (h : inCount s < 2 ∨ inCount s < wireHl s + wirePlen s) :
    decodeFrame s.input = none := by
  by_cases h2 : inCount s < 2
  · exact decodeFrame_short (s.input_length.trans_lt h2)
  · rw [decodeFrame_input (Nat.not_lt.mp h2), frameAt_input_truncated (h.resolve_left h2)]

/-- Settles O43: each check that fails leaves `decodeFrame` without a frame, and so TRUNCATED_FRAME. -/
theorem fdecReportsTruncation : Obligations.FdecReportsTruncation := by
  intro s hfits h
  have hshort : inCount s < 2 ∨ inCount s < wireHl s + wirePlen s := by omega
  rw [exec, execFdec_none hfits (decodeFrame_input_truncated hshort), raiseError_failed s (by decide)]

/-! ### Every error -/

/-- A completion that ends with an error is `raiseError` of that very error (R810). -/
theorem raiseError_of_runWord {w : Word} {s t : State} (h : runWord w s = .next t) (he : t.status.err ≠ .none) :
    raiseError t.status.err s = .next t := by
  have herr : ∀ {code : ErrCode}, raiseError code s = .next t → raiseError t.status.err s = .next t := by
    intro code hr
    have hcode : t.status.err = code := by cases hr; rfl
    rwa [hcode]
  cases hd : decode w with
  | error e => exact herr (runWord_error hd s ▸ h)
  | ok i =>
    rw [runWord_ok hd] at h
    obtain ⟨code, -, hx⟩ | ⟨-, hx⟩ | ⟨r, -, hx⟩ := exec_cases i s
    · exact herr (hx ▸ h)
    · rw [hx, complete_eq] at h
      cases h
      exact absurd rfl he
    · rw [hx] at h
      cases h
      exact absurd rfl he

/-- OBUF as INVALID_CHARACTER leaves it: the drawn bytes are written like a delivery (log entry 6). -/
theorem obufByte_invalidCharacter {s t : State} (h : raiseError .invalidCharacter s = .next t) (a : Nat) :
    t.obufByte a = if a < 3 * (inCount s / 4) then Config.freeByte .obuf s.draws a else s.obufByte a := by
  rw [raiseError_invalidCharacter] at h
  cases h
  refine (s.obufByte_deliver s.spoilt a).trans ?_
  simp [State.spoilt]

/-- What an error of each code commits (R810). -/
theorem raiseError_commits {code : ErrCode} {s t : State} (h : raiseError code s = .next t) :
    t = { failed s code with obuf := t.obuf } ∧
    (code ≠ .invalidCharacter → t.obuf = s.obuf) ∧
    (code = .invalidCharacter →
      (∀ a, a < 3 * (inCount s / 4) → t.obufByte a = Config.freeByte .obuf s.draws a) ∧
      ObufKeptFrom (3 * (inCount s / 4)) s t) := by
  by_cases hc : code = .invalidCharacter
  · subst hc
    have hobuf := obufByte_invalidCharacter h
    refine ⟨?_, fun hn => absurd rfl hn, fun _ => ⟨fun a ha => ?_, fun a ha => ?_⟩⟩
    · rw [raiseError_invalidCharacter] at h
      cases h
      rfl
    · rw [hobuf, if_pos ha]
    · rw [hobuf, if_neg (Nat.not_lt.mpr ha)]
  · rw [raiseError_failed s hc] at h
    cases h
    exact ⟨rfl, fun _ => rfl, fun hx => absurd hx hc⟩

/-- Settles O51: the completion is `raiseError` of its own code, and `raiseError_commits` says what that leaves. -/
theorem commandErrorsArePrecise : Obligations.CommandErrorsArePrecise := fun _ _ _ h he =>
  raiseError_commits (raiseError_of_runWord h he)

end Sys2Proof.Machine
end

section
/-! PROOFS. The reset family: the reset input (70_reset_and_hazards.md R900). -/

namespace Sys2Proof.Machine

open Sys2Proof.Claims

/-! ### What the reset leaves to read -/

theorem State.hardwareReset_irq (s : State) : s.hardwareReset.irq = false := by
  rw [State.irq, State.hardwareReset_ie, Bool.false_and]

theorem State.hardwareReset_statusWord (s : State) : s.hardwareReset.statusWord = 0 := by
  simp [State.statusWord, State.busy_eq, flagBit, ErrCode.code]

theorem State.hardwareReset_readReg (s : State) {r : Reg} (hr : r ≠ .bufSize) : s.hardwareReset.readReg r = 0 := by
  cases r with
  | bufSize => exact absurd rfl hr
  | status => exact s.hardwareReset_statusWord
  | _ => rfl

/-- With no byte of OBUF listed, each is the free value of the reset's own draw. -/
theorem State.hardwareReset_obufByte (s : State) (a : Nat) :
    s.hardwareReset.obufByte a = Config.freeByte .obuf s.draws a := by
  simp [State.obufByte]

theorem State.hardwareReset_ibufCell (s : State) (a : Nat) :
    s.hardwareReset.ibufCell a = Config.freeByte .ibuf s.draws a := by
  simp [State.ibufCell]

/-- A command's read draws at the time of the read (20_memory.md R211). -/
theorem State.hardwareReset_ibufByte (s : State) (a : Nat) :
    s.hardwareReset.ibufByte a = Config.freeByte .ibuf s.hardwareReset.draws a := by
  simp [State.ibufByte]

/-! ### The step that takes the reset input -/

/-- Taking the operation off the queue and the turn off the schedule commutes with the reset (log entry 19). -/
theorem step_hardReset {s : State} {rest : List HostOp} (hm : s.mover = .host) (hh : s.host = .hardReset :: rest) :
    step s = .next (State.hardwareReset { s with host := rest, sched := s.sched.tail }) := by
  rw [step_host hm]
  simp only [hostTurn, hh]
  rfl

/-- Settles O23: the step is `State.hardwareReset` of a state with the same draws and parameters. -/
theorem hardwareResetClearsTheBlock : Obligations.HardwareResetClearsTheBlock := by
  rintro s ⟨hm, rest, hh⟩
  refine ⟨_, step_hardReset hm hh, State.hardwareReset_irq _, State.hardwareReset_inflight _,
    State.hardwareReset_cfg _, fun r hr => State.hardwareReset_readReg _ hr, rfl, fun a => ⟨?_, ?_, ?_⟩⟩
  · exact State.hardwareReset_obufByte _ a
  · exact State.hardwareReset_ibufCell _ a
  · exact State.hardwareReset_ibufByte _ a

end Sys2Proof.Machine
end

section
/-! PROOFS. What every step keeps: the invariant of Safety.lean over a completion, a host access and a step, and at
reset. -/

namespace Sys2Proof.Machine

/-! ### The invariant over a completion -/

/-- The invariant does not read the schedule. -/
theorem State.Inv.withSched {s : State} (hi : s.Inv) (sc : List Agent) : ({ s with sched := sc } : State).Inv :=
  hi.withHost s.host sc s.resp

theorem exec_inv {i : Instr} {s t : State} (hi : s.Inv) (h : exec i s = .next t) : t.Inv := by
  obtain ⟨code, -, he⟩ | ⟨-, he⟩ | ⟨r, hr, he⟩ := exec_cases i s
  · refine raiseError_inv hi ?_ (he ▸ h)
    rw [or_iff_not_imp_left, not_le]
    rintro hlong rfl
    exact exec_ne_invalidCharacter hlong he
  · rw [he, complete_eq] at h
    cases h
    exact State.finish_inv hi
  · rw [he] at h
    cases h
    exact Result.apply_inv hr hi

theorem blockTurn_inv {s t : State} (hi : s.Inv) (h : blockTurn s = .next t) : t.Inv := by
  obtain ⟨-, he⟩ | ⟨w, -, he⟩ | ⟨w, i, -, -, he⟩ := blockTurn_cases s
  · rw [he] at h
    cases h
    exact hi
  · exact raiseError_inv hi (.inr (by decide)) (he ▸ h)
  · exact exec_inv hi (he ▸ h)

/-! ### The invariant over a host access -/

/-- A read moves the draw counter on, or leaves it (log entry 12). -/
theorem busRead_inv {w : Width} {off : Nat} {s t : State} (hi : s.Inv) (h : busRead w off s = .next t) : t.Inv := by
  obtain ⟨v, d, rfl, hd⟩ := busRead_next h
  obtain ⟨hcfg, hib, hob, hdone, herr, huopc, huerr, hout, hpay, hwire, hfresh⟩ := hi
  exact ⟨hcfg, hib, hob, hdone, herr, huopc, huerr, hout, hpay, hwire, by simp only; omega⟩

theorem State.Inv.withIbuf {s : State} {m : Memory} (hi : s.Inv) (hm : m.wf s.cfg.bufBytes) :
    ({ s with ibuf := m } : State).Inv := by
  obtain ⟨hcfg, -, hob, hdone, herr, huopc, huerr, hout, hpay, hwire, hfresh⟩ := hi
  exact ⟨hcfg, hm, hob, hdone, herr, huopc, huerr, hout, hpay, hwire, hfresh⟩

theorem State.overrun_inv {s : State} (hi : s.Inv) : s.overrun.Inv := by
  obtain ⟨hcfg, hib, hob, hdone, herr, huopc, huerr, hout, hpay, hwire, hfresh⟩ := hi
  exact ⟨hcfg, hib, hob, hdone, herr, huopc, huerr, hout, hpay, hwire, hfresh⟩

theorem State.frozen_inv {s t : State} (hi : s.Inv) (ht : t.Inv) : (s.frozen t).Inv := by
  cases hb : s.busy with
  | false => rwa [State.frozen_idle hb]
  | true =>
    rw [State.frozen_busy hb]
    exact State.overrun_inv hi

theorem busWrite_inv {w : Width} {off : Nat} {v : Word} {s t : State} (hi : s.Inv)
    (h : busWrite w off v s = .next t) : t.Inv := by
  obtain ⟨r, -, rfl⟩ | ⟨o, hl, rfl⟩ := busWrite_next h
  · exact (State.writeReg_inv r v hi).withHost _ _ _
  · have hin : o + (laneBytes w.bytes v).length ≤ s.cfg.bufBytes := by
      rw [laneBytes_length]
      exact (locate_buf hl).2
    exact (State.frozen_inv hi (hi.withIbuf (Memory.wf_write hi.ibuf_wf hin))).withHost _ _ _

theorem hostTurn_inv {s t : State} (hi : s.Inv) (h : hostTurn s = .next t) : t.Inv := by
  obtain ⟨-, rfl⟩ | ⟨w, addr, rest, off, -, -, hr⟩ | ⟨w, addr, v, rest, off, -, -, hw⟩ | ⟨rest, -, rfl⟩ |
    ⟨rest, -, rfl⟩ := hostTurn_next h
  · exact hi
  · exact busRead_inv (hi.withHost rest s.sched s.resp) hr
  · exact busWrite_inv (hi.withHost rest s.sched s.resp) hw
  · exact hi.withHost _ _ _
  · exact (State.reset_inv_of hi).2.withHost _ _ _

/-- Settles O26: each agent's turn keeps the invariant, and the schedule has no part in it. -/
theorem stepKeepsTheInvariant : Obligations.StepKeepsTheInvariant := by
  intro s t hi h
  cases hm : s.mover with
  | block => exact blockTurn_inv (hi.withSched _) (step_block hm ▸ h)
  | host => exact hostTurn_inv (hi.withSched _) (step_host hm ▸ h)

/-- Settles O27: after reset both buffers are empty and every register is 0. -/
theorem resetMeetsTheInvariant : Obligations.ResetMeetsTheInvariant where
  cfg_legal := by decide
  ibuf_wf := Memory.wf_nil _
  obuf_wf := Memory.wf_nil _
  done_idle _ := rfl
  busy_err _ := rfl
  busy_uopc _ := rfl
  uopc_err _ := rfl
  outLen_le := Nat.zero_le _
  payloadLen_le := Nat.zero_le _
  wireLen_le := Nat.zero_le _
  fresh := by decide

end Sys2Proof.Machine
end

section
/-! PROOFS. The round trips: a command whose input is the output of another, for Base64 (40_base64.md R420), the frame
codec (42_frame_codec.md R640) and XMASK (R641). -/

namespace Sys2Proof.Machine

open Sys2Proof.Claims

/-! ### An output copied to IBUF -/

/-- A result delivered by one command, copied to IBUF with its count, is the input of the next. -/
theorem input_of_copy {r : Result} {s u : State} (hfits : r.bytes.length ≤ 2 ^ 20)
    (hlen : u.inLen = (r.apply s).outLen)
    (hcopy : ∀ a, a < (r.apply s).outLen.toNat → u.ibufByte a = (r.apply s).obufByte a) : u.input = r.bytes := by
  have hcount : inCount u = r.bytes.length := by rw [inCount, hlen, r.apply_outLen s hfits]
  apply List.ext_getElem?
  intro a
  by_cases ha : a < inCount u
  · rw [State.input_getElem? ha, hcopy a (hlen ▸ ha),
      r.apply_obufByte s (List.getElem?_eq_getElem (hcount ▸ ha))]
    exact (List.getElem?_eq_getElem _).symm
  · rw [List.getElem?_eq_none (by simpa using ha), List.getElem?_eq_none (by omega)]

/-- A result whose bytes are the input of `s` gives that input back. -/
theorem Result.apply_gives_input {r : Result} {s : State} (u : State) (h : r.bytes = s.input) :
    (r.apply u).outLen = s.inLen ∧ ∀ a, a < inCount s → (r.apply u).obufByte a = s.ibufByte a := by
  refine ⟨?_, fun a ha => r.apply_obufByte u (h ▸ State.input_getElem? ha)⟩
  show BitVec.ofNat 32 r.bytes.length = s.inLen
  rw [h, State.input_length, State.ofNat_inCount]

/-! ### Base64 -/

/-- What a command leaves that delivers bytes and writes no other result register. -/
def bytesResult (bs : List Byte) (s : State) : Result where
  bytes := bs
  frameHdr := s.frameHdr
  payloadLen := s.payloadLen
  maskKey := s.maskKey
  wireLen := s.wireLen
  digest := s.digest
  uopc := false

theorem exec_b64e {s : State} (hfits : inCount s ≤ s.cfg.bufBytes)
    (hout : 4 * ceilDiv (inCount s) 3 ≤ s.cfg.bufBytes) :
    exec .b64e s = .next ((bytesResult (b64Encode s.input) s).apply s) :=
  execB64e_ok hfits hout

theorem exec_b64d {s : State} {out : List Byte} (hfits : inCount s ≤ s.cfg.bufBytes) (h4 : inCount s % 4 = 0)
    (hd : b64Decode s.input = some out) : exec .b64d s = .next ((bytesResult out s).apply s) :=
  execB64d_some hfits h4 hd

theorem b64Encode_input_length (s : State) : (b64Encode s.input).length = 4 * ceilDiv (inCount s) 3 := by
  rw [b64Encode_length, State.input_length]

/-- Settles O36: the second command's input is the text, whose decoding is the first command's input. -/
theorem base64RoundTrip : Obligations.Base64RoundTrip := by
  intro s hcfg hfits hout
  have hbuf : s.cfg.bufBytes ≤ 2 ^ 20 := (wf_bounds hcfg).2
  have htext := b64Encode_input_length s
  refine ⟨_, exec_b64e hfits hout, fun u hucfg hlen hcopy => ?_⟩
  have hin : u.input = b64Encode s.input := input_of_copy (htext.trans_le (by omega)) hlen hcopy
  have hcount : inCount u = 4 * ceilDiv (inCount s) 3 := by rw [← htext, ← hin, State.input_length]
  obtain ⟨houtLen, hbytes⟩ := (bytesResult s.input u).apply_gives_input u rfl
  exact ⟨_, exec_b64d (by rw [hucfg]; omega) (by omega) (hin ▸ b64Decode_b64Encode s.input), rfl, houtLen, hbytes⟩

/-! ### The frame codec -/

/-- What FDEC leaves of a decoded frame. -/
def frameResult (fr : WireFrame) (s : State) : Result where
  bytes := fr.payload
  frameHdr := fr.hdr
  payloadLen := BitVec.ofNat 32 fr.payload.length
  maskKey := fr.key
  wireLen := BitVec.ofNat 32 fr.wireLen
  digest := s.digest
  uopc := reservedOpcode (hdrOpcode fr.hdr)

theorem exec_fdec {s : State} {fr : WireFrame} (hfits : inCount s ≤ s.cfg.bufBytes)
    (hd : decodeFrame s.input = some fr) : exec .fdec s = .next ((frameResult fr s).apply s) :=
  execFdec_some hfits hd

/-- The frame FENC encodes, as its decoder gives it: the key is 0 when unmasked (R613). -/
def sentFrame (s : State) : WireFrame where
  hdr := s.frameHdr
  key := if hdrM s then s.maskKey else 0
  payload := s.input
  wireLen := fencLen s

theorem decodeFrame_fencResult (s : State) : decodeFrame (fencResult s).bytes = some (sentFrame s) := by
  have hlt : s.input.length < 2 ^ 64 := by
    rw [State.input_length]
    exact s.inLen.isLt.trans (by decide)
  have hround := decodeFrame_encodeFrame s.frameHdr s.maskKey s.input [] hlt
  rw [List.append_nil] at hround
  rw [sentFrame, ← fencResult_bytes_length]
  exact hround

/-- Settles O45: the second command's input is the frame, which decodes to the first command's registers and input. -/
theorem frameRoundTrip : Obligations.FrameRoundTrip := by
  intro s hcfg hfits hwire
  have hbuf : s.cfg.bufBytes ≤ 2 ^ 20 := (wf_bounds hcfg).2
  have hframe := fencResult_bytes_length s
  refine ⟨_, exec_fenc hfits hwire, fun u hucfg hlen hcopy => ?_⟩
  have hin : u.input = (fencResult s).bytes := input_of_copy (by omega) hlen hcopy
  have hcount : inCount u = fencLen s := by rw [← hframe, ← hin, State.input_length]
  obtain ⟨houtLen, hbytes⟩ := (frameResult (sentFrame s) u).apply_gives_input u rfl
  exact ⟨_, exec_fdec (by rw [hucfg]; omega) (hin ▸ decodeFrame_fencResult s), rfl, rfl, houtLen, houtLen, rfl, rfl,
    hbytes⟩

/-! ### XMASK -/

/-- Settles O47: masking the masked bytes with the same key gives the input back. -/
theorem maskingIsItsOwnInverse : Obligations.MaskingIsItsOwnInverse := by
  intro s hcfg hfits
  have hbuf : s.cfg.bufBytes ≤ 2 ^ 20 := (wf_bounds hcfg).2
  have hmasked := xmaskResult_bytes_length s
  refine ⟨_, exec_xmask hfits, fun u hucfg hlen hkey hcopy => ?_⟩
  have hin : u.input = xorMask s.maskKey s.input := input_of_copy (r := xmaskResult s) (by omega) hlen hcopy
  have hcount : inCount u = inCount s := by rw [← hmasked, xmaskResult, ← hin, State.input_length]
  have hback : (xmaskResult u).bytes = s.input := by
    rw [xmaskResult, hin, hkey, xorMask_xorMask]
  obtain ⟨houtLen, hbytes⟩ := (xmaskResult u).apply_gives_input u hback
  exact ⟨_, exec_xmask (by rw [hucfg]; omega), houtLen, hbytes⟩

end Sys2Proof.Machine
end

section
/-! PROOFS. The Base64 text by index: B64E (40_base64.md R400), B64D (R410, R412) and the alphabet (R401). -/

namespace Sys2Proof.Machine

open Sys2Proof.Claims

/-! ### The bytes of IBUF by count -/

theorem State.take_input {s : State} {n : Nat} (h : n ≤ inCount s) : s.input.take n = s.memRead 0 n :=
  s.slice_memRead (i := 0) (by rwa [Nat.zero_add])

theorem State.input_eq_inputBytes (s : State) : s.input = inputBytes s := by
  simp [State.memRead, inputBytes]

/-! ### The encoder, character by character -/

/-- The index order of the groups is that of the text: a whole group ahead shifts it by one. -/
theorem b64Char_succ (b0 b1 b2 : Byte) (rest : List Byte) (j k : Nat) :
    b64Char (b0 :: b1 :: b2 :: rest) (j + 1) k = b64Char rest j k := by
  have hleft : (b0 :: b1 :: b2 :: rest).length - (3 * j + 3) = rest.length - 3 * j := by
    simp only [List.length_cons]
    omega
  simp only [b64Char, Nat.mul_add, Nat.mul_one, hleft, List.getD_cons_succ]

/-- A whole group has no padding (R403). -/
theorem b64Char_whole (b0 b1 b2 : Byte) (rest : List Byte) (k : Nat) :
    b64Char (b0 :: b1 :: b2 :: rest) 0 k = groupChar (group24 b0 b1 b2) k := by
  have hleft : min 3 ((b0 :: b1 :: b2 :: rest).length - 3 * 0) = 3 := by
    simp only [List.length_cons]
    omega
  simp only [b64Char, hleft]
  rfl

/-- The text by index: character k of group j is at offset `4j + k` (R400). -/
theorem b64Encode_getElem? (bs : List Byte) :
    ∀ {j k : Nat}, j < ceilDiv bs.length 3 → k < 4 → (b64Encode bs)[4 * j + k]? = some (b64Char bs j k) := by
  fun_induction b64Encode bs
  case case1 =>
    intro j k hj
    simp [ceilDiv] at hj
  case case2 b0 g =>
    intro j k hj hk
    obtain rfl : j = 0 := by simpa [ceilDiv] using hj
    interval_cases k <;> rfl
  case case3 b0 b1 g =>
    intro j k hj hk
    obtain rfl : j = 0 := by simpa [ceilDiv] using hj
    interval_cases k <;> rfl
  case case4 b0 b1 b2 rest g ih =>
    rintro (_ | j) k hj hk
    · rw [b64Char_whole]
      interval_cases k <;> rfl
    · have hj' : j < ceilDiv rest.length 3 := by
        simp only [ceilDiv, List.length_cons] at hj ⊢
        omega
      rw [b64Char_succ, ← ih hj' hk, show 4 * (j + 1) + k = 4 * j + k + 4 by omega]
      rfl

/-- Settles O32: B64E delivers the text of its input and writes no other result register. -/
theorem b64eWritesTheText : Obligations.B64eWritesTheText := by
  intro s hcfg hfits hout
  have hbuf : s.cfg.bufBytes ≤ 2 ^ 20 := (wf_bounds hcfg).2
  have htext := b64Encode_input_length s
  have hlen := (bytesResult (b64Encode s.input) s).apply_outLen s (htext.trans_le (by omega))
  have hkept := (bytesResult (b64Encode s.input) s).apply_obufKept s
  refine ⟨_, exec_b64e hfits hout, Result.apply_completed _ s, Result.apply_inputsKept _ s, ⟨rfl, rfl⟩, ⟨rfl, rfl⟩, rfl,
    hlen.trans htext, fun j k hj hk => ?_, htext ▸ hkept⟩
  refine Result.apply_obufByte _ s ?_
  rw [← s.input_eq_inputBytes]
  exact b64Encode_getElem? _ (by rwa [State.input_length]) hk

/-! ### The decoder, byte by byte -/

/-- The 24 bits of group j of a sequence of indices (R403). -/
def indexGroup (vs : List (BitVec 6)) (j : Nat) : BitVec 24 :=
  vs.getD (4 * j) 0 ++ vs.getD (4 * j + 1) 0 ++ vs.getD (4 * j + 2) 0 ++ vs.getD (4 * j + 3) 0

theorem joinGroups_getElem? (vs : List (BitVec 6)) :
    ∀ {m : Nat}, m < 3 * (vs.length / 4) →
      (joinGroups vs)[m]? = some ((indexGroup vs (m / 3)).extractLsb' (16 - 8 * (m % 3)) 8) := by
  fun_induction joinGroups vs
  case case1 v0 v1 v2 v3 rest g ih =>
    intro m hm
    by_cases hfirst : m < 3
    · interval_cases m <;> rfl
    · obtain ⟨n, rfl⟩ := Nat.exists_eq_add_of_le' (Nat.not_lt.mp hfirst)
      have hn : n < 3 * (rest.length / 4) := by
        simp only [List.length_cons] at hm
        omega
      rw [Nat.add_div_right n (by decide), Nat.add_mod_right]
      exact ih hn
  case case2 vs hshort =>
    intro m hm
    have hlen := joinGroups_length vs
    rw [joinGroups.eq_2 vs hshort, List.length_nil] at hlen
    omega

theorem padCount_input (s : State) : padCount s.input = padOf s := by
  simp only [padCount, padOf, State.input_length]
  by_cases h0 : inCount s = 0
  · rw [if_pos h0, if_pos h0]
  · have h1 : s.input[inCount s - 1]? = some (s.ibufByte (inCount s - 1)) := State.input_getElem? (by omega)
    have h2 : s.input[inCount s - 2]? = some (s.ibufByte (inCount s - 2)) := State.input_getElem? (by omega)
    have hpad : (0x3D : Byte) = padChar := rfl
    rw [if_neg h0, if_neg h0, h1, h2, hpad]
    by_cases hlast : s.ibufByte (inCount s - 1) = padChar <;> by_cases hprev : s.ibufByte (inCount s - 2) = padChar <;>
      simp [hlast, hprev]

/-- The indices of the text in IBUF, with the padding as 0 (R410). -/
def textIndices (s : State) : List (BitVec 6) :=
  ((s.memRead 0 (inCount s - padOf s)).map fun c => (dec64 c).getD 0) ++ List.replicate (padOf s) 0

theorem padOf_le (s : State) : padOf s ≤ 2 := padCount_input s ▸ padCount_le s.input

theorem padOf_le_inCount {s : State} (h4 : inCount s % 4 = 0) : padOf s ≤ inCount s := by
  have h2 := padOf_le s
  by_cases h0 : inCount s = 0
  · simp [padOf, h0]
  · omega

theorem textIndices_length {s : State} (h4 : inCount s % 4 = 0) : (textIndices s).length = inCount s := by
  have := padOf_le_inCount h4
  simp [textIndices]
  omega

theorem textIndices_getD (s : State) (i : Nat) :
    (textIndices s).getD i 0 = if inCount s - padOf s ≤ i then 0 else (dec64 (s.ibufByte i)).getD 0 := by
  rw [textIndices, List.getD_eq_getElem?_getD]
  split_ifs with hi
  · rw [List.getElem?_append_right (by simpa using hi), List.getElem?_replicate]
    split_ifs <;> rfl
  · rw [List.getElem?_append_left (by simp; omega), List.getElem?_map, s.memRead_getElem? 0 (Nat.not_le.mp hi)]
    simp

/-- The bytes the text in IBUF decodes to (R410). -/
def textBytes (s : State) : List Byte := (joinGroups (textIndices s)).take (3 * (inCount s / 4) - padOf s)

theorem textBytes_length {s : State} (h4 : inCount s % 4 = 0) :
    (textBytes s).length = 3 * (inCount s / 4) - padOf s := by
  rw [textBytes, List.length_take, joinGroups_length, textIndices_length h4]
  omega

theorem textBytes_getElem? {s : State} {m : Nat} (h4 : inCount s % 4 = 0) (hm : m < 3 * (inCount s / 4) - padOf s) :
    (textBytes s)[m]? = some (b64Byte s m) := by
  rw [textBytes, List.getElem?_take_of_lt hm, joinGroups_getElem? _ (by rw [textIndices_length h4]; omega)]
  simp only [indexGroup, textIndices_getD]
  rfl

/-- The text is valid when every character before the padding is in the alphabet (R410, R412). -/
theorem alphabetic_input_iff (s : State) :
    (s.input.take (inCount s - padOf s)).all (fun c => (dec64 c).isSome) = true ↔
      ∀ i, i < inCount s - padOf s → dec64 (s.ibufByte i) ≠ none := by
  rw [State.take_input (Nat.sub_le _ _)]
  simp [State.memRead, Option.isSome_iff_ne_none]

theorem b64Decode_input_some {s : State} (h : ∀ i, i < inCount s - padOf s → dec64 (s.ibufByte i) ≠ none) :
    b64Decode s.input = some (textBytes s) := by
  simp only [b64Decode, padCount_input, State.input_length]
  rw [if_pos ((alphabetic_input_iff s).mpr h), State.take_input (Nat.sub_le _ _)]
  rfl

theorem b64Decode_input_none {s : State} (h : ∃ i, i < inCount s - padOf s ∧ dec64 (s.ibufByte i) = none) :
    b64Decode s.input = none := by
  obtain ⟨i, hi, hnone⟩ := h
  simp only [b64Decode, padCount_input, State.input_length]
  exact if_neg fun hall => (alphabetic_input_iff s).mp hall i hi hnone

/-- Settles O34: B64D delivers the bytes of the text's index groups and writes no other result register. -/
theorem b64dWritesTheBytes : Obligations.B64dWritesTheBytes := by
  intro s hcfg hfits h4 hvalid
  have hbuf : s.cfg.bufBytes ≤ 2 ^ 20 := (wf_bounds hcfg).2
  have hbytes := textBytes_length h4
  have hlen := (bytesResult (textBytes s) s).apply_outLen s (hbytes.trans_le (by omega))
  have hkept := (bytesResult (textBytes s) s).apply_obufKept s
  exact ⟨_, exec_b64d hfits h4 (b64Decode_input_some hvalid), Result.apply_completed _ s, Result.apply_inputsKept _ s,
    ⟨rfl, rfl⟩, ⟨rfl, rfl⟩, rfl, hlen.trans hbytes,
    fun m hm => Result.apply_obufByte _ s (textBytes_getElem? h4 hm), hbytes ▸ hkept⟩

/-- Settles O35: the text does not decode, and INVALID_CHARACTER commits what `raiseError_commits` says. -/
theorem b64dReportsAnInvalidCharacter : Obligations.B64dReportsAnInvalidCharacter := by
  intro s _ hfits h4 hinvalid
  obtain ⟨hstate, -, hobuf⟩ := raiseError_commits (raiseError_invalidCharacter s)
  exact ⟨_, (execB64d_none hfits h4 (b64Decode_input_none hinvalid)).trans (raiseError_invalidCharacter s), hstate,
    hobuf rfl⟩

/-! ### The alphabet -/

/-- Settles O57: each range of the alphabet is a branch of `enc64`, and the listing is those branches in order. -/
theorem base64AlphabetIsTheTable : Obligations.Base64AlphabetIsTheTable := by
  refine ⟨fun v => ⟨fun h => ?_, fun h h' => ?_, fun h h' => ?_, fun h => ?_, fun h => ?_, enc64_ne_pad v⟩, by decide⟩
  · rw [enc64_toNat, if_pos h]
  · rw [enc64_toNat, if_neg (by omega), if_pos h']
  · rw [enc64_toNat, if_neg (by omega), if_neg (by omega), if_pos h']
  · rw [BitVec.eq_of_toNat_eq (y := 62) h]
    rfl
  · rw [BitVec.eq_of_toNat_eq (y := 63) h]
    rfl

end Sys2Proof.Machine
end

section
/-! PROOFS. The SHA-1 engine (41_sha1.md): the message schedule (R502, R504), the rounds and blocks (R505 to R507), the
digest bytes (R508); the commands SHA1 (R500) and ACCEPT (43_handshake_control.md R700). -/

namespace Sys2Proof.Machine

open Sys2Proof.Claims

/-! ### The message schedule -/

/-- The schedule in the order of its words, `k` of them computed. -/
def scheduleUpTo (k : Nat) (ws : List Word) : List Word := (extendW k ws.reverse).reverse

/-- The last word computed is the newest: `extendW` may be unfolded from either end. -/
theorem extendW_succ (k : Nat) (rev : List Word) : extendW (k + 1) rev = nextW (extendW k rev) :: extendW k rev := by
  induction k generalizing rev with
  | zero => rfl
  | succ k ih => exact ih (nextW rev :: rev)

theorem scheduleUpTo_length (k : Nat) (ws : List Word) : (scheduleUpTo k ws).length = ws.length + k := by
  rw [scheduleUpTo, List.length_reverse, extendW_length, List.length_reverse, Nat.add_comm]

theorem scheduleUpTo_zero (ws : List Word) : scheduleUpTo 0 ws = ws := List.reverse_reverse ws

theorem scheduleUpTo_succ (k : Nat) (ws : List Word) :
    scheduleUpTo (k + 1) ws = scheduleUpTo k ws ++ [nextW (scheduleUpTo k ws).reverse] := by
  rw [scheduleUpTo, scheduleUpTo, extendW_succ, List.reverse_cons, List.reverse_reverse]

theorem getD_reverse (ws : List Word) {i : Nat} (h : i < ws.length) :
    ws.reverse.getD i 0 = ws.getD (ws.length - 1 - i) 0 := by
  rw [List.getD_eq_getElem?_getD, List.getElem?_reverse h, List.getD_eq_getElem?_getD]

/-- A computed word stays as it is. -/
theorem scheduleUpTo_succ_getD {k t : Nat} {ws : List Word} (h : t < ws.length + k) :
    (scheduleUpTo (k + 1) ws).getD t 0 = (scheduleUpTo k ws).getD t 0 := by
  rw [scheduleUpTo_succ, List.getD_append _ _ _ _ (by rwa [scheduleUpTo_length])]

/-- The word the recurrence of R504 gives at place `t`. -/
def recurrence (ws : List Word) (t : Nat) : Word :=
  (ws.getD (t - 3) 0 ^^^ ws.getD (t - 8) 0 ^^^ ws.getD (t - 14) 0 ^^^ ws.getD (t - 16) 0).rotateLeft 1

/-- `nextW` counts its four words from the end (R504). -/
theorem nextW_reverse {ws : List Word} (h : 16 ≤ ws.length) : nextW ws.reverse = recurrence ws ws.length := by
  rw [nextW, rotl32_eq_rotateLeft _ _ (by decide), getD_reverse ws (by omega), getD_reverse ws (by omega),
    getD_reverse ws (by omega), getD_reverse ws (by omega)]
  rfl

/-- The first words stay, and each later one is the recurrence of its predecessors. -/
theorem scheduleUpTo_getD {ws : List Word} (h16 : ws.length = 16) (k : Nat) :
    (∀ t, t < 16 → (scheduleUpTo k ws).getD t 0 = ws.getD t 0) ∧
    ∀ t, 16 ≤ t → t < 16 + k → (scheduleUpTo k ws).getD t 0 = recurrence (scheduleUpTo k ws) t := by
  induction k with
  | zero =>
    rw [scheduleUpTo_zero]
    exact ⟨fun t _ => rfl, fun t h h' => by omega⟩
  | succ k ih =>
    obtain ⟨ihFirst, ihLater⟩ := ih
    have hlen := scheduleUpTo_length k ws
    have hstays : ∀ {t : Nat}, t < 16 + k → (scheduleUpTo (k + 1) ws).getD t 0 = (scheduleUpTo k ws).getD t 0 :=
      fun ht => scheduleUpTo_succ_getD (by omega)
    refine ⟨fun t ht => (hstays (by omega)).trans (ihFirst t ht), fun t h h' => ?_⟩
    have hpast : recurrence (scheduleUpTo (k + 1) ws) t = recurrence (scheduleUpTo k ws) t := by
      simp only [recurrence]
      rw [hstays (by omega), hstays (by omega), hstays (by omega), hstays (by omega)]
    rw [hpast]
    by_cases hold : t < 16 + k
    · rw [hstays hold, ihLater t h hold]
    · obtain rfl : t = (scheduleUpTo k ws).length := by omega
      rw [scheduleUpTo_succ, List.getD_append_right _ _ _ _ (le_refl _), Nat.sub_self, List.getD_cons_zero,
        nextW_reverse (by omega)]

theorem blockWords_length (block : List Byte) : (blockWords block).length = 16 := by simp [blockWords]

theorem schedule_eq (block : List Byte) : schedule block = scheduleUpTo 64 (blockWords block) := rfl

/-- Four bytes loaded big-endian, the first highest (R502). -/
theorem ofNat_fromBe_four (b0 b1 b2 b3 : Byte) :
    BitVec.ofNat 32 (fromBe [b0, b1, b2, b3]) = b0 ++ b1 ++ b2 ++ b3 := by
  apply BitVec.eq_of_toNat_eq
  have h0 := b0.isLt
  have h1 := b1.isLt
  have h2 := b2.isLt
  have h3 := b3.isLt
  simp only [fromBe, List.foldl_cons, List.foldl_nil, BitVec.toNat_ofNat, BitVec.toNat_append]
  rw [← Nat.shiftLeft_add_eq_or_of_lt h1, ← Nat.shiftLeft_add_eq_or_of_lt h2, ← Nat.shiftLeft_add_eq_or_of_lt h3]
  simp only [Nat.shiftLeft_eq]
  omega

theorem slice_four {bs : List Byte} {i : Nat} (h : i + 4 ≤ bs.length) :
    slice bs i 4 = [bs.getD i 0, bs.getD (i + 1) 0, bs.getD (i + 2) 0, bs.getD (i + 3) 0] := by
  apply List.ext_getElem
  · rw [slice_length _ _ _ h]
    rfl
  · intro k hk _
    rw [slice_length _ _ _ h] at hk
    interval_cases k <;> simp [slice, List.getD_eq_getElem?_getD, show i < bs.length by omega,
      show i + 1 < bs.length by omega, show i + 2 < bs.length by omega, show i + 3 < bs.length by omega]

theorem blockWords_getD {block : List Byte} (h64 : block.length = 64) {t : Nat} (ht : t < 16) :
    (blockWords block).getD t 0 =
      block.getD (4 * t) 0 ++ block.getD (4 * t + 1) 0 ++ block.getD (4 * t + 2) 0 ++ block.getD (4 * t + 3) 0 := by
  rw [← ofNat_fromBe_four, ← slice_four (by omega)]
  simp [blockWords, ht]

/-- Settles O39: the schedule is sixteen loaded words and 64 steps of the recurrence. -/
theorem sha1ScheduleRecurrence : Obligations.Sha1ScheduleRecurrence := by
  intro block
  obtain ⟨hfirst, hlater⟩ := scheduleUpTo_getD (blockWords_length block) 64
  rw [← schedule_eq] at hfirst hlater
  exact ⟨schedule_length block, fun h64 t ht => (hfirst t ht).trans (blockWords_getD h64 ht),
    fun t h h' => hlater t h (by omega)⟩

/-! ### Rounds and blocks -/

/-- The round function is that of the group of twenty `t` is in (R505). -/
theorem roundF_eq_fTable {t : Nat} (ht : t < 80) (b c d : Word) : roundF t b c d = fTable t b c d := by
  obtain h | h | h | h : t / 20 = 0 ∨ t / 20 = 1 ∨ t / 20 = 2 ∨ t / 20 = 3 := by omega
  all_goals
    rw [fTable, h, roundF]
  · rw [if_pos (by omega)]
    rfl
  · rw [if_neg (by omega), if_pos (by omega)]
    rfl
  · rw [if_neg (by omega), if_neg (by omega), if_pos (by omega)]
    rfl
  · rw [if_neg (by omega), if_neg (by omega), if_neg (by omega)]
    rfl

theorem roundK_eq_kTable {t : Nat} (ht : t < 80) : roundK t = kTable t := by
  obtain h | h | h | h : t / 20 = 0 ∨ t / 20 = 1 ∨ t / 20 = 2 ∨ t / 20 = 3 := by omega
  all_goals
    rw [kTable, h, roundK]
  · rw [if_pos (by omega)]
    rfl
  · rw [if_neg (by omega), if_pos (by omega)]
    rfl
  · rw [if_neg (by omega), if_neg (by omega), if_pos (by omega)]
    rfl
  · rw [if_neg (by omega), if_neg (by omega), if_neg (by omega)]
    rfl

/-- One round in the words of the statement (R506). -/
theorem sha1Round_eq {t : Nat} (ht : t < 80) (r : Digest) (w : Word) :
    sha1Round r t w =
      { h0 := r.h0.rotateLeft 5 + fTable t r.h1 r.h2 r.h3 + r.h4 + kTable t + w
        h1 := r.h0
        h2 := r.h1.rotateLeft 30
        h3 := r.h2
        h4 := r.h3 } := by
  rw [sha1Round, roundF_eq_fTable ht, roundK_eq_kTable ht, rotl32_eq_rotateLeft _ _ (by decide),
    rotl32_eq_rotateLeft _ _ (by decide)]

/-- Settles O58: `sha1Core` is the fold over the blocks by its definition, and `sha1Rounds_trace` has the working
registers round by round. -/
theorem sha1CompressesBlockByBlock : Obligations.Sha1CompressesBlockByBlock := by
  refine ⟨fun m => rfl, fun h block => ?_⟩
  obtain ⟨r, hstart, hround, hend⟩ := sha1Rounds_trace (schedule block) 0 h
  rw [schedule_length] at hround hend
  refine ⟨r, hstart, fun t ht => ?_, ?_⟩
  · rw [hround t ht, Nat.zero_add, sha1Round_eq ht]
  · rw [sha1Block, hend]

/-- Settles O40: two messages of one block each, run through the engine. -/
theorem sha1OfTheSourcesShortMessages : Obligations.Sha1OfTheSourcesShortMessages :=
  ⟨by decide +kernel, by decide +kernel⟩

/-! ### The digest as bytes -/

/-- Each byte of the five big-endian words, by its place (R508). -/
theorem digestBytes_eq (d : Digest) : digestBytes d = (List.range 20).map (digestByte d) := rfl

theorem digestBytes_getElem? (d : Digest) {i : Nat} (h : i < 20) : (digestBytes d)[i]? = some (digestByte d i) := by
  rw [digestBytes_eq]
  simp [h]

/-- What a command leaves that delivers bytes of a digest it records. -/
def digestResult (d : Digest) (bs : List Byte) (s : State) : Result := { bytesResult bs s with digest := d }

/-! ### SHA1 -/

theorem exec_sha1 {s : State} (hfits : inCount s ≤ s.cfg.bufBytes) :
    exec .sha1 s =
      .next ((digestResult (sha1Core (inputBytes s)) (digestBytes (sha1Core (inputBytes s))) s).apply s) := by
  rw [exec, execSha1_ok hfits, s.input_eq_inputBytes]
  rfl

/-- Settles O37: SHA1 delivers the bytes of the digest it records. -/
theorem sha1WritesTheDigest : Obligations.Sha1WritesTheDigest := by
  intro s _ hfits
  have hkept := (digestResult (sha1Core (inputBytes s)) (digestBytes (sha1Core (inputBytes s))) s).apply_obufKept s
  rw [digestResult, bytesResult, digestBytes_length] at hkept
  exact ⟨_, exec_sha1 hfits, Result.apply_completed _ s, Result.apply_inputsKept _ s, ⟨rfl, rfl⟩, ⟨rfl, rfl⟩, rfl, rfl,
    fun a ha => Result.apply_obufByte _ s (digestBytes_getElem? _ ha), hkept⟩

/-! ### ACCEPT -/

/-- The digest of key and GUID (R700). -/
def acceptDigest (s : State) : Digest := sha1Core (inputBytes s ++ guidBytes)

theorem exec_accept {s : State} (hfits : inCount s ≤ s.cfg.bufBytes) :
    exec .accept s =
      .next ((digestResult (acceptDigest s) (b64Encode (digestBytes (acceptDigest s))) s).apply s) := by
  rw [exec, execAccept_ok hfits, s.input_eq_inputBytes]
  rfl

/-- Seven groups of four characters (R700). -/
theorem acceptText_length (d : Digest) : (b64Encode (digestBytes d)).length = 28 := by
  rw [b64Encode_length, digestBytes_length]
  rfl

theorem acceptText_getElem? (d : Digest) {j k : Nat} (hj : j < 7) (hk : k < 4) :
    (b64Encode (digestBytes d))[4 * j + k]? = some (b64Char ((List.range 20).map (digestByte d)) j k) := by
  rw [← digestBytes_eq]
  exact b64Encode_getElem? _ (by rwa [digestBytes_length]) hk

/-- The last group has two bytes, so its last character is padding (R702). -/
theorem acceptText_last (d : Digest) : (b64Encode (digestBytes d))[27]? = some 0x3D :=
  acceptText_getElem? d (j := 6) (k := 3) (by decide) (by decide)

/-- Settles O48: ACCEPT delivers the Base64 text of the digest it records. -/
theorem acceptWritesTheAcceptText : Obligations.AcceptWritesTheAcceptText := by
  intro s _ hfits
  have hkept := (digestResult (acceptDigest s) (b64Encode (digestBytes (acceptDigest s))) s).apply_obufKept s
  rw [digestResult, bytesResult, acceptText_length] at hkept
  have hlen : BitVec.ofNat 32 (b64Encode (digestBytes (acceptDigest s))).length = 28 := by
    rw [acceptText_length]
    rfl
  exact ⟨_, exec_accept hfits, Result.apply_completed _ s, Result.apply_inputsKept _ s, ⟨rfl, rfl⟩, ⟨rfl, rfl⟩, rfl,
    by decide, hlen, fun j k hj hk => Result.apply_obufByte _ s (acceptText_getElem? _ hj hk),
    Result.apply_obufByte _ s (acceptText_last _), hkept⟩

end Sys2Proof.Machine
end

section
/-! PROOFS. The completion of any command word: that it comes and what it keeps (30_encoding.md R304), its error codes
(60_exceptions.md R801), its row of the write table (10_state.md R126), the inputs its results are a function of (R121);
and FDEC's frame (42_frame_codec.md R610). -/

namespace Sys2Proof.Machine

open Sys2Proof.Claims

/-! ### FDEC -/

theorem wireFrame_payload_length (s : State) : (wireFrame s).payload.length = wirePlen s := by
  rw [wireFrame]
  split_ifs <;> simp

/-- Payload byte i of the frame in IBUF, unmasked (30_encoding.md R318). -/
theorem wireFrame_payload_getElem? {s : State} {i : Nat} (h : i < wirePlen s) :
    (wireFrame s).payload[i]? = some (s.ibufByte (wireHl s + i) ^^^ maskOf (wireMasked s) (wireKey s) i) := by
  have hbyte := s.memRead_getElem? (wireHl s) h
  rw [wireFrame]
  cases wireMasked s with
  | false => simpa [maskOf] using hbyte
  | true => exact xorMask_getElem? hbyte

/-- Settles O41: FDEC leaves the registers and the bytes of `wireFrame`, which fits in its input. -/
theorem fdecDecodesOneFrame : Obligations.FdecDecodesOneFrame := by
  intro s hcfg hw
  have hbuf : s.cfg.bufBytes ≤ 2 ^ 20 := (wf_bounds hcfg).2
  have hlen := wireFrame_payload_length s
  have hle : wireHl s + wirePlen s ≤ 2 ^ 20 := by
    obtain ⟨hfits, -, hwhole⟩ := hw
    omega
  have hcount : (BitVec.ofNat 32 (wireFrame s).payload.length).toNat = wirePlen s := by
    rw [hlen, BitVec.toNat_ofNat]
    omega
  have hwire : (BitVec.ofNat 32 (wireFrame s).wireLen).toNat = wireHl s + wirePlen s := by
    rw [BitVec.toNat_ofNat]
    exact Nat.mod_eq_of_lt (lt_of_le_of_lt hle (by decide))
  have hkept := (fdecResult s).apply_obufKept s
  rw [fdecResult, hlen] at hkept
  exact ⟨_, exec_fdec_wholeFrame hw, Result.apply_completed _ s, Result.apply_inputsKept _ s, rfl, rfl, rfl, hcount,
    hwire, hcount, fun i hi => Result.apply_obufByte _ s (wireFrame_payload_getElem? hi), hkept⟩

/-! ### Every word completes -/

theorem State.idle_of_inflight {s : State} (h : s.inflight = none) : s.busy = false := by
  rw [State.busy_eq, h, Option.isSome_none]

theorem State.busy_of_inflight {s : State} {w : Word} (h : s.inflight = some w) : s.busy = true := by
  rw [State.busy_eq, h, Option.isSome_some]

/-- Every command error is the precise one but for OBUF, which INVALID_CHARACTER disturbs (60_exceptions.md R810). -/
theorem raiseError_form (code : ErrCode) (s : State) :
    ∃ m, raiseError code s = .next { failed s code with obuf := m } := by
  by_cases hx : code = .invalidCharacter
  · subst hx
    exact ⟨_, raiseError_invalidCharacter s⟩
  · exact ⟨_, raiseError_failed s hx⟩

theorem raiseError_completes {code : ErrCode} {s t : State} (h : raiseError code s = .next t) :
    Completed s t code false ∧ InputsKept s t := by
  obtain ⟨m, hm⟩ := raiseError_form code s
  rw [hm] at h
  cases h
  exact ⟨⟨rfl, rfl⟩, rfl, rfl, rfl, rfl, rfl, rfl, rfl, rfl, rfl⟩

theorem exec_completes {i : Instr} {s t : State} (h : exec i s = .next t) :
    Completed s t t.status.err t.status.uopc ∧ InputsKept s t := by
  obtain ⟨code, -, he⟩ | ⟨-, he⟩ | ⟨r, -, he⟩ := exec_cases i s
  · obtain ⟨⟨hidle, hstatus⟩, hkept⟩ := raiseError_completes (he ▸ h)
    exact ⟨⟨hidle, by rw [hstatus]⟩, hkept⟩
  · rw [he, complete_eq] at h
    cases h
    exact ⟨⟨rfl, rfl⟩, rfl, rfl, rfl, rfl, rfl, rfl, rfl, rfl, rfl⟩
  · rw [he] at h
    cases h
    exact ⟨Result.apply_completed _ s, Result.apply_inputsKept _ s⟩

/-- Whatever the word, its completion is one in the sense of R304 and writes none of the inputs (R118, R126). -/
theorem runWord_completes {w : Word} {s t : State} (h : runWord w s = .next t) :
    Completed s t t.status.err t.status.uopc ∧ InputsKept s t := by
  cases hd : decode w with
  | ok i => exact exec_completes (runWord_ok hd s ▸ h)
  | error e =>
    obtain ⟨⟨hidle, hstatus⟩, hkept⟩ := raiseError_completes (runWord_error hd s ▸ h)
    exact ⟨⟨hidle, by rw [hstatus]⟩, hkept⟩

/-! ### The codes of each command -/

/-- A completion that answers a next state, with one of these codes. -/
def EndsIn (codes : List ErrCode) (o : Host.Outcome State Fault Refusal) : Prop :=
  ∃ t, o = .next t ∧ t.status.err ∈ codes

section
variable {codes : List ErrCode} {s : State}

theorem raiseError_endsIn {code : ErrCode} (h : code ∈ codes) : EndsIn codes (raiseError code s) := ⟨_, rfl, h⟩

theorem complete_endsIn (h : .none ∈ codes) (u : Bool) : EndsIn codes (complete s u) := ⟨_, rfl, h⟩

theorem withInput_endsIn {k : List Byte → Host.Outcome State Fault Refusal} (h : .badLength ∈ codes)
    (hk : ∀ input, EndsIn codes (k input)) : EndsIn codes (withInput s k) := by
  by_cases hfits : inCount s ≤ s.cfg.bufBytes
  · rw [withInput_ok hfits]
    exact hk _
  · rw [withInput_badLength (Nat.not_le.mp hfits)]
    exact raiseError_endsIn h

end

/-- Each command ends with a code of its own row (60_exceptions.md R801). -/
theorem exec_endsIn (i : Instr) (s : State) : EndsIn (errorsOf (encode i)) (exec i s) := by
  cases i with
  | nop => exact complete_endsIn (by decide) _
  | b64e =>
    rw [exec, execB64e]
    refine withInput_endsIn (by decide) fun input => ?_
    split_ifs
    · exact raiseError_endsIn (by decide)
    · exact complete_endsIn (by decide) _
  | b64d =>
    rw [exec, execB64d]
    refine withInput_endsIn (by decide) fun input => ?_
    split_ifs
    · split
      · exact raiseError_endsIn (by decide)
      · exact complete_endsIn (by decide) _
    · exact raiseError_endsIn (by decide)
  | sha1 =>
    rw [exec, execSha1]
    exact withInput_endsIn (by decide) fun input => complete_endsIn (by decide) _
  | fdec =>
    rw [exec, execFdec]
    refine withInput_endsIn (by decide) fun input => ?_
    split
    · exact raiseError_endsIn (by decide)
    · exact complete_endsIn (by decide) _
  | fenc =>
    rw [exec, execFenc]
    refine withInput_endsIn (by decide) fun input => ?_
    dsimp only
    split_ifs
    · exact raiseError_endsIn (by decide)
    · exact complete_endsIn (by decide) _
  | xmask =>
    rw [exec, execXmask]
    exact withInput_endsIn (by decide) fun input => complete_endsIn (by decide) _
  | accept =>
    rw [exec, execAccept]
    exact withInput_endsIn (by decide) fun input => complete_endsIn (by decide) _

/-- Settles O52: a command's word is `encode` of it, and every other word ends with BAD_COMMAND. -/
theorem completionsEndWithTheirOwnCodes : Obligations.CompletionsEndWithTheirOwnCodes := by
  intro w s
  cases hd : decode w with
  | ok i =>
    rw [runWord_ok hd, (decode_ok_iff w i).mp hd]
    exact exec_endsIn i s
  | error e =>
    rw [runWord_error hd, errorsOf, hd]
    exact raiseError_endsIn (List.mem_singleton.mpr rfl)

/-- The completion of a word always answers a next state. -/
theorem runWord_next (w : Word) (s : State) : ∃ t, runWord w s = .next t := by
  obtain ⟨t, ht, -⟩ := completionsEndWithTheirOwnCodes w s
  exact ⟨t, ht⟩

/-- Settles O8: the block's step is the completion of the latched word. -/
theorem everyCompletionSetsDone : Obligations.EveryCompletionSetsDone := by
  intro s w hi hm
  obtain ⟨t, ht⟩ := runWord_next w { s with sched := s.sched.tail }
  obtain ⟨⟨hidle, hstatus⟩, -, hie, hin, hibuf, -⟩ := runWord_completes ht
  exact ⟨t, (step_inflight hi hm).trans ht, State.idle_of_inflight hidle, by rw [hstatus], by rw [hstatus], hie, hin,
    hibuf⟩

/-! ### The write table -/

/-- Settles O53: an error is no success, NOP writes STATUS alone, and every other success is a sound result. -/
theorem commandsWriteOnlyTheirResults : Obligations.CommandsWriteOnlyTheirResults := by
  intro i s t hcfg h hnone
  obtain ⟨hcompleted, hkept⟩ := exec_completes h
  have hovr : t.status.ovr = s.status.ovr := by rw [hcompleted.2]
  refine ⟨hkept, hovr, ?_⟩
  obtain ⟨code, hcode, he⟩ | ⟨rfl, he⟩ | ⟨r, hr, he⟩ := exec_cases i s
  · obtain ⟨⟨-, hstatus⟩, -⟩ := raiseError_completes (he ▸ h)
    rw [hstatus] at hnone
    exact absurd hnone hcode
  · rw [he, complete_eq] at h
    cases h
    exact ⟨fun _ => ⟨⟨rfl, rfl⟩, rfl⟩, fun _ _ => ⟨rfl, rfl⟩, fun _ _ => rfl, fun _ => ⟨rfl, rfl⟩,
      fun hn => absurd rfl hn⟩
  · rw [he] at h
    cases h
    have hbuf : s.cfg.bufBytes ≤ 2 ^ 20 := (wf_bounds hcfg).2
    have hbytes := hr.fits hcfg
    have hout := r.apply_outLen s (hbytes.trans hbuf)
    exact ⟨fun hi => ⟨⟨hr.hdr hi, hr.key hi⟩, hr.uopc hi⟩, fun hd he => ⟨hr.plen hd he, hr.wlen hd he⟩, hr.dig,
      fun hi => absurd hi hr.not_nop, fun _ => ⟨hout.trans_le hbytes, hout ▸ r.apply_obufKept s⟩⟩

/-! ### The inputs of a command -/

/-- Two states a completion cannot tell apart by its inputs (10_state.md R121, 20_memory.md R209). -/
structure SameInputs (s s' : State) : Prop where
  cfg : s.cfg = s'.cfg
  inLen : s.inLen = s'.inLen
  frameHdr : s.frameHdr = s'.frameHdr
  maskKey : s.maskKey = s'.maskKey
  ibuf : s.ibuf = s'.ibuf
  draws : s.draws = s'.draws

/-- Two completions of command i with the same results, as far as the command writes them. -/
def SameResults (i : Instr) (t t' : State) : Prop :=
  t.status.err = t'.status.err ∧ t.status.uopc = t'.status.uopc ∧ HeaderKept t t' ∧
  (i ≠ .nop → t.outLen = t'.outLen ∧ ∀ a, a < t.outLen.toNat → t.obufByte a = t'.obufByte a) ∧
  (i = .sha1 ∨ i = .accept → t.status.err = .none → t.digest = t'.digest) ∧
  (i = .fdec ∨ i = .fenc → t.status.err = .none → t.payloadLen = t'.payloadLen ∧ t.wireLen = t'.wireLen)

/-- Two completions that answer next states with the same results. -/
def AgreeingEnds (i : Instr) (o o' : Host.Outcome State Fault Refusal) : Prop :=
  ∃ t t', o = .next t ∧ o' = .next t' ∧ SameResults i t t'

theorem SameInputs.input {s s' : State} (h : SameInputs s s') : s.input = s'.input := by
  simp only [State.memRead, State.ibufByte, h.inLen, h.ibuf, h.draws]

section
variable {i : Instr} {s s' : State} (h : SameInputs s s')
include h

theorem raiseError_agrees {code : ErrCode} (hc : code ≠ .none) :
    AgreeingEnds i (raiseError code s) (raiseError code s') := by
  obtain ⟨m, hm⟩ := raiseError_form code s
  obtain ⟨m', hm'⟩ := raiseError_form code s'
  exact ⟨_, _, hm, hm', rfl, rfl, ⟨h.frameHdr.symm, h.maskKey.symm⟩,
    fun _ => ⟨rfl, fun a ha => absurd ha (Nat.not_lt_zero a)⟩, fun _ he => absurd he hc, fun _ he => absurd he hc⟩

theorem withInput_agrees {k k' : List Byte → Host.Outcome State Fault Refusal}
    (hk : ∀ input, AgreeingEnds i (k input) (k' input)) : AgreeingEnds i (withInput s k) (withInput s' k') := by
  by_cases hfits : inCount s ≤ s.cfg.bufBytes
  · have hfits' : inCount s' ≤ s'.cfg.bufBytes := by rwa [inCount, ← h.inLen, ← h.cfg]
    rw [withInput_ok hfits, withInput_ok hfits']
    show AgreeingEnds i (k s.input) (k' s'.input)
    rw [← h.input]
    exact hk _
  · have hlong := Nat.not_le.mp hfits
    have hlong' : s'.cfg.bufBytes < inCount s' := by rwa [inCount, ← h.inLen, ← h.cfg]
    rw [withInput_badLength hlong, withInput_badLength hlong']
    exact raiseError_agrees h (by decide)

end

/-- Two deliveries of the same bytes agree when the registers their command writes do. -/
theorem deliver_agrees {i : Instr} {x x' : State} (bs : List Byte) (u : Bool) (hheader : HeaderKept x x')
    (hdigest : i = .sha1 ∨ i = .accept → x.digest = x'.digest)
    (hlengths : i = .fdec ∨ i = .fenc → x.payloadLen = x'.payloadLen ∧ x.wireLen = x'.wireLen) :
    AgreeingEnds i (complete (x.deliver bs) u) (complete (x'.deliver bs) u) := by
  refine ⟨_, _, rfl, rfl, rfl, rfl, hheader, fun _ => ⟨rfl, fun a ha => ?_⟩, fun hi _ => hdigest hi,
    fun hi _ => hlengths hi⟩
  have hin : a < bs.length := lt_of_lt_of_le ha (by simpa using Nat.mod_le _ _)
  rw [State.obufByte_finish, State.obufByte_finish, State.obufByte_deliver, State.obufByte_deliver, dif_pos hin,
    dif_pos hin]

/-- The completions of one command from two states with the same inputs (R121). -/
theorem exec_agrees {s s' : State} (h : SameInputs s s') (i : Instr) : AgreeingEnds i (exec i s) (exec i s') := by
  have hheader : HeaderKept s s' := ⟨h.frameHdr.symm, h.maskKey.symm⟩
  cases i with
  | nop =>
    exact ⟨_, _, rfl, rfl, rfl, rfl, hheader, fun hn => absurd rfl hn, by simp, by simp⟩
  | b64e =>
    rw [exec, exec, execB64e, execB64e]
    refine withInput_agrees h fun input => ?_
    rw [h.cfg]
    split_ifs
    · exact raiseError_agrees h (by decide)
    · exact deliver_agrees _ _ hheader (by simp) (by simp)
  | b64d =>
    rw [exec, exec, execB64d, execB64d]
    refine withInput_agrees h fun input => ?_
    split_ifs
    · split
      · exact raiseError_agrees h (by decide)
      · exact deliver_agrees _ _ hheader (by simp) (by simp)
    · exact raiseError_agrees h (by decide)
  | sha1 =>
    rw [exec, exec, execSha1, execSha1]
    exact withInput_agrees h fun input => deliver_agrees _ _ hheader (fun _ => rfl) (by simp)
  | fdec =>
    rw [exec, exec, execFdec, execFdec]
    refine withInput_agrees h fun input => ?_
    split
    · exact raiseError_agrees h (by decide)
    · exact deliver_agrees _ _ ⟨rfl, rfl⟩ (by simp) fun _ => ⟨rfl, rfl⟩
  | fenc =>
    rw [exec, exec, execFenc, execFenc]
    refine withInput_agrees h fun input => ?_
    rw [h.cfg, h.frameHdr, h.maskKey]
    dsimp only
    split_ifs
    · exact raiseError_agrees h (by decide)
    · exact deliver_agrees _ _ ⟨rfl, rfl⟩ (by simp) fun _ => ⟨rfl, rfl⟩
  | xmask =>
    rw [exec, exec, execXmask, execXmask]
    refine withInput_agrees h fun input => ?_
    rw [h.maskKey]
    exact deliver_agrees _ _ hheader (by simp) (by simp)
  | accept =>
    rw [exec, exec, execAccept, execAccept]
    exact withInput_agrees h fun input => deliver_agrees _ _ hheader (fun _ => rfl) (by simp)

/-- Settles O54: equal inputs give agreeing completions, command by command, and BAD_COMMAND has no results. -/
theorem resultsDependOnlyOnTheFrozenInputs : Obligations.ResultsDependOnlyOnTheFrozenInputs := by
  intro w s s' t t' hcfg hlen hhdr hkey hibuf hdraws ht ht'
  have h : SameInputs s s' := ⟨hcfg, hlen, hhdr, hkey, hibuf, hdraws⟩
  cases hd : decode w with
  | ok i =>
    obtain ⟨x, x', hx, hx', herr, huopc, hheader, hout, hdig, hlens⟩ := exec_agrees h i
    rw [runWord_ok hd, hx] at ht
    rw [runWord_ok hd, hx'] at ht'
    cases ht
    cases ht'
    simp only [ne_eq, Except.ok.injEq]
    exact ⟨herr, huopc, hheader, hout, hdig, hlens⟩
  | error e =>
    rw [runWord_error hd, execBadWord_eq] at ht ht'
    cases ht
    cases ht'
    simp only [reduceCtorEq, or_self, false_implies, and_true]
    exact ⟨rfl, rfl, ⟨hhdr.symm, hkey.symm⟩, fun _ => ⟨rfl, fun a ha => absurd ha (Nat.not_lt_zero a)⟩⟩

end Sys2Proof.Machine
end

section
/-! PROOFS. The host's accesses: the STATUS word (10_state.md R103), the registers (R100, R101), which accesses are
answered (60_exceptions.md R830), reads without effect and writes made twice (20_memory.md R208). -/

namespace Sys2Proof.Machine

open Sys2Proof.Claims

/-! ### The STATUS word -/

theorem flagBit_getLsbD :
    ∀ (b : Bool), ∀ pos < 4, ∀ i < 32, (flagBit b pos).getLsbD i = (b && decide (i = pos)) := by decide

/-- The word of STATUS bit by bit (R103). -/
theorem State.statusWord_getLsbD (s : State) {i : Nat} (hi : i < 32) :
    s.statusWord.getLsbD i =
      (s.busy && decide (i = 0) || s.status.done && decide (i = 1) || s.status.uopc && decide (i = 2) ||
        s.status.ovr && decide (i = 3) || decide (8 ≤ i) && s.status.err.code.getLsbD (i - 8)) := by
  simp only [State.statusWord, BitVec.getLsbD_or, BitVec.getLsbD_shiftLeft, BitVec.getLsbD_setWidth,
    flagBit_getLsbD _ _ (by decide : 0 < 4) i hi, flagBit_getLsbD _ _ (by decide : 1 < 4) i hi,
    flagBit_getLsbD _ _ (by decide : 2 < 4) i hi, flagBit_getLsbD _ _ (by decide : 3 < 4) i hi]
  by_cases h8 : 8 ≤ i
  · simp [h8, Nat.not_lt.mpr h8, hi, show i - 8 < 32 by omega]
  · simp [h8, Nat.not_le.mp h8]

/-- Above the flags the word has ERR alone (R103). -/
theorem State.statusWord_getLsbD_high (s : State) {i : Nat} (h4 : 4 ≤ i) (hi : i < 32) :
    s.statusWord.getLsbD i = (decide (8 ≤ i) && s.status.err.code.getLsbD (i - 8)) := by
  rw [s.statusWord_getLsbD hi]
  simp [show i ≠ 0 by omega, show i ≠ 1 by omega, show i ≠ 2 by omega, show i ≠ 3 by omega]

/-- ERR stands in bits 11:8 (R103). -/
theorem State.statusWord_err (s : State) : s.statusWord.extractLsb' 8 4 = s.status.err.code := by
  apply BitVec.eq_of_getLsbD_eq
  intro i hi
  rw [BitVec.getLsbD_extractLsb', s.statusWord_getLsbD_high (by omega) (by omega)]
  simp [hi]

/-- Bits 7:4 are reserved (R103). -/
theorem State.statusWord_reserved (s : State) : s.statusWord.extractLsb' 4 4 = 0 := by
  apply BitVec.eq_of_getLsbD_eq
  intro i hi
  rw [BitVec.getLsbD_extractLsb', s.statusWord_getLsbD_high (by omega) (by omega)]
  simp [show ¬ 8 ≤ 4 + i by omega]

/-- Bits 31:12 are reserved (R103). -/
theorem State.statusWord_reserved_high (s : State) : s.statusWord.extractLsb' 12 20 = 0 := by
  apply BitVec.eq_of_getLsbD_eq
  intro i hi
  rw [BitVec.getLsbD_extractLsb', s.statusWord_getLsbD_high (by omega) (by omega),
    BitVec.getLsbD_of_ge _ _ (by omega : 4 ≤ 12 + i - 8)]
  simp

theorem State.statusWord_busy (s : State) : s.statusWord.getLsbD 0 = s.busy := by
  rw [s.statusWord_getLsbD (by decide)]
  simp

theorem State.statusWord_done (s : State) : s.statusWord.getLsbD 1 = s.status.done := by
  rw [s.statusWord_getLsbD (by decide)]
  simp

theorem State.statusWord_uopc (s : State) : s.statusWord.getLsbD 2 = s.status.uopc := by
  rw [s.statusWord_getLsbD (by decide)]
  simp

theorem State.statusWord_ovr (s : State) : s.statusWord.getLsbD 3 = s.status.ovr := by
  rw [s.statusWord_getLsbD (by decide)]
  simp

/-- Settles O10: each field is read off the bits of the word. -/
theorem statusWordHasTheFields : Obligations.StatusWordHasTheFields := fun s =>
  ⟨busRead_reg s .status, s.statusWord_busy, s.statusWord_done, s.statusWord_uopc, s.statusWord_ovr,
    s.statusWord_reserved, s.statusWord_err, s.statusWord_reserved_high⟩

/-- Bits 1 and 3 are those of DONE and OVR. -/
theorem doneOvrMask_getLsbD : ∀ i < 32, (0x0000000A : Word).getLsbD i = (decide (i = 1) || decide (i = 3)) := by
  decide

/-- The W1C write clears bits 1 and 3 of the word where it has a 1 (R105, R107). -/
theorem State.acknowledge_statusWord (s : State) (v : Word) :
    (s.acknowledge v).statusWord = s.statusWord &&& ~~~(v &&& 0x0000000A) := by
  apply BitVec.eq_of_getLsbD_eq
  intro i hi
  rw [State.statusWord_getLsbD _ hi, BitVec.getLsbD_and, BitVec.getLsbD_not, BitVec.getLsbD_and,
    doneOvrMask_getLsbD i hi, State.statusWord_getLsbD _ hi]
  by_cases h1 : i = 1
  · subst h1
    simp
  · by_cases h3 : i = 3
    · subst h3
      simp
    · simp [h1, h3, hi]

/-- Settles O11: the write to STATUS is `State.acknowledge`. -/
theorem statusWriteClearsDoneAndOverrun : Obligations.StatusWriteClearsDoneAndOverrun := fun s v =>
  ⟨_, busWrite_reg s .status v, s.acknowledge_statusWord v, rfl⟩

/-! ### Registers -/

/-- The registers a host write leaves alone at all times (R101). -/
def readOnlyRegs : List Reg :=
  [.outLen, .payloadLen, .wireLen, .digest0, .digest1, .digest2, .digest3, .digest4, .bufSize]

theorem State.writeReg_readOnly (s : State) (v : Word) : ∀ r ∈ readOnlyRegs, s.writeReg r v = s := by
  simp [readOnlyRegs, State.writeReg]

/-- Settles O14: the offsets are those of the read-only registers. -/
theorem readOnlyRegistersIgnoreWrites : Obligations.ReadOnlyRegistersIgnoreWrites := by
  intro s v off hoff
  obtain ⟨r, hr, rfl⟩ : ∃ r ∈ readOnlyRegs, r.offset = off := List.mem_map.mp hoff
  rw [busWrite_reg, s.writeReg_readOnly v r hr]

/-- The registers but CTRL and STATUS, whose words have their own statements, in the order of their offsets (R100). -/
def plainRegs : List Reg :=
  [.cmd, .inLen, .outLen, .frameHdr, .payloadLen, .maskKey, .wireLen, .digest0, .digest1, .digest2, .digest3, .digest4,
    .bufSize]

/-- Settles O15: the pairs are the offsets and the words of `State.readReg`. -/
theorem registerReadsFollowTheMap : Obligations.RegisterReadsFollowTheMap := by
  intro s p hp
  rw [BitVec.ofNat_toNat] at hp
  obtain ⟨r, -, rfl⟩ : ∃ r ∈ plainRegs, (r.offset, s.readReg r) = p := List.mem_map.mp hp
  exact busRead_reg s r

theorem hdrMask_getLsbD : ∀ i < 32, (0x000001FF : Word).getLsbD i = decide (i < 9) := by decide

/-- FRAME_HDR keeps bits 8:0 of what is written (R112). -/
theorem setWidth_nine (v : Word) : (v.setWidth 9).setWidth 32 = v &&& 0x000001FF := by
  apply BitVec.eq_of_getLsbD_eq
  intro i hi
  rw [BitVec.getLsbD_and, hdrMask_getLsbD i hi, BitVec.getLsbD_setWidth, BitVec.getLsbD_setWidth]
  by_cases h9 : i < 9 <;> simp [h9, hi]

/-- Settles O13: while idle a write to an operand register is done, and `State.readReg` has it. -/
theorem writtenOperandsReadBack : Obligations.WrittenOperandsReadBack := by
  intro s v hb
  refine ⟨⟨_, busWrite_reg s .inLen v, ?_, ?_⟩, ⟨_, busWrite_reg s .frameHdr v, ?_, ?_⟩,
    ⟨_, busWrite_reg s .maskKey v, ?_, ?_⟩⟩
  all_goals rw [State.writeReg, State.frozen_idle hb]
  · exact busRead_reg _ .inLen
  · rw [← setWidth_nine]
    exact busRead_reg _ .frameHdr
  · exact busRead_reg _ .maskKey

/-- Settles O24: the reset state, field by field. -/
theorem resetStateReadsZero : Obligations.ResetStateReadsZero :=
  ⟨rfl, rfl, rfl, rfl, rfl, by decide, by decide⟩

/-! ### Which accesses are answered -/

theorem Reg.offset_lt (r : Reg) : r.offset < 0x3C := by cases r <;> decide

theorem Reg.offset_aligned (r : Reg) : r.offset % 4 = 0 := by cases r <;> decide

/-- The fifteen registers fill the first sixty bytes of the aperture (10_state.md R100). -/
theorem exists_reg_at : ∀ off < 0x3C, off % 4 = 0 → ∃ r ∈ regList, r.offset = off := by decide

section
variable {size : Nat} {w : Width} {off : Nat}

theorem locate_reg_iff :
    (∃ r, locate size w off = .ok (.reg r)) ↔ off < 0x3C ∧ w = .w32 ∧ off % 4 = 0 := by
  constructor
  · rintro ⟨r, h⟩
    obtain ⟨rfl, rfl⟩ := locate_reg_offset h
    exact ⟨r.offset_lt, rfl, r.offset_aligned⟩
  · rintro ⟨hlt, rfl, h4⟩
    obtain ⟨r, -, rfl⟩ := exists_reg_at off hlt h4
    exact ⟨r, locate_reg size r⟩

theorem bufOffset_eq (b : Buf) (o : Nat) : bufOffset b o = bufOffset b 0 + o := by cases b <;> rfl

theorem bufOffset_zero_mod (b : Buf) (w : Width) : bufOffset b 0 % w.bytes = 0 := by
  cases b <;> cases w <;> rfl

theorem locate_bufOffset {b : Buf} {o : Nat} (hz : size ≤ 2 ^ 20) (ha : o % w.bytes = 0) (hs : o + w.bytes ≤ size) :
    locate size w (bufOffset b o) = .ok (.buf b o) := by
  cases b with
  | ibuf => exact locate_ibuf hz ha hs
  | obuf => exact locate_obuf hz ha hs

theorem offset_of_locate_buf {b : Buf} {o : Nat} (h : locate size w off = .ok (.buf b o)) : off = bufOffset b o := by
  obtain ⟨rfl, rfl⟩ | ⟨rfl, rfl⟩ := locate_buf_offset h
  · rfl
  · rfl

/-- A buffer is reached by the aligned accesses wholly inside its window (20_memory.md R203). -/
theorem locate_buf_iff (b : Buf) (hz : size ≤ 2 ^ 20) :
    (∃ o, locate size w off = .ok (.buf b o)) ↔
      bufOffset b 0 ≤ off ∧ off + w.bytes ≤ bufOffset b 0 + size ∧ off % w.bytes = 0 := by
  constructor
  · rintro ⟨o, h⟩
    obtain ⟨ha, hs⟩ := locate_buf h
    rw [offset_of_locate_buf h, bufOffset_eq b o]
    exact ⟨by omega, by omega, by rw [Nat.add_mod, bufOffset_zero_mod, ha, Nat.zero_mod]⟩
  · rintro ⟨hle, hs, ha⟩
    obtain ⟨o, rfl⟩ := Nat.exists_eq_add_of_le hle
    rw [Nat.add_mod, bufOffset_zero_mod, Nat.zero_add, Nat.mod_mod] at ha
    exact ⟨o, bufOffset_eq b o ▸ locate_bufOffset hz ha (by omega)⟩

/-- The writes that are answered reach a register or IBUF (R830). -/
theorem writeAnswered_iff (hz : size ≤ 2 ^ 20) :
    writeAnswered size w off ↔
      (∃ r, locate size w off = .ok (.reg r)) ∨ ∃ o, locate size w off = .ok (.buf .ibuf o) :=
  or_congr locate_reg_iff.symm (locate_buf_iff .ibuf hz).symm

/-- The reads that are answered are those that reach anything (R830). -/
theorem readAnswered_iff (hz : size ≤ 2 ^ 20) :
    readAnswered size w off ↔ ∃ target, locate size w off = .ok target := by
  constructor
  · rintro (h | h | h)
    · obtain ⟨r, hr⟩ := locate_reg_iff.mpr h
      exact ⟨_, hr⟩
    · obtain ⟨o, ho⟩ := (locate_buf_iff .ibuf hz).mpr h
      exact ⟨_, ho⟩
    · obtain ⟨o, ho⟩ := (locate_buf_iff .obuf hz).mpr h
      exact ⟨_, ho⟩
  · rintro ⟨r | ⟨_ | _, o⟩, h⟩
    · exact .inl (locate_reg_iff.mp ⟨r, h⟩)
    · exact .inr (.inl ((locate_buf_iff .ibuf hz).mp ⟨o, h⟩))
    · exact .inr (.inr ((locate_buf_iff .obuf hz).mp ⟨o, h⟩))

end

section
variable {w : Width} {off : Nat} (v : Word) {s : State}

theorem busRead_located {target : Target} (h : locate s.cfg.bufBytes w off = .ok target) :
    ∃ t, busRead w off s = .next t := by
  cases target with
  | reg r => exact ⟨_, by rw [busRead, h]⟩
  | buf b o => exact ⟨_, by rw [busRead, h]⟩

theorem busRead_error {e : BusError} (h : locate s.cfg.bufBytes w off = .error e) :
    busRead w off s = .fault (.busError e) := by
  rw [busRead, h]

theorem busWrite_located_reg {r : Reg} (h : locate s.cfg.bufBytes w off = .ok (.reg r)) :
    busWrite w off v s = .next { s.writeReg r v with resp := .written } := by
  rw [busWrite, h]

theorem busWrite_located_ibuf {o : Nat} (h : locate s.cfg.bufBytes w off = .ok (.buf .ibuf o)) :
    busWrite w off v s =
      .next { s.frozen { s with ibuf := s.ibuf.write o (laneBytes w.bytes v) } with resp := .written } := by
  rw [busWrite, h]

/-- A write that reaches neither a register nor IBUF is a bus error (R830). -/
theorem busWrite_error (hreg : ¬ ∃ r, locate s.cfg.bufBytes w off = .ok (.reg r))
    (hibuf : ¬ ∃ o, locate s.cfg.bufBytes w off = .ok (.buf .ibuf o)) :
    ∃ e, busWrite w off v s = .fault (.busError e) := by
  rw [busWrite]
  split
  · exact ⟨_, rfl⟩
  · next r h => exact absurd ⟨r, h⟩ hreg
  · next o h => exact absurd ⟨o, h⟩ hibuf
  · exact ⟨_, rfl⟩

end

/-- Settles O17: the answered accesses are those `locate` gives a target, less OBUF for a write. -/
theorem busErrorsAreExactlyTheIllegalAccesses : Obligations.BusErrorsAreExactlyTheIllegalAccesses := by
  intro s w off v hcfg
  have hz : s.cfg.bufBytes ≤ 2 ^ 20 := (wf_bounds hcfg).2
  rw [readAnswered_iff hz, writeAnswered_iff hz]
  refine ⟨fun ⟨target, h⟩ => busRead_located h, fun hnone => ?_, ?_, fun hnone => ?_⟩
  · cases hl : locate s.cfg.bufBytes w off with
    | ok target => exact absurd ⟨target, hl⟩ hnone
    | error e => exact ⟨e, busRead_error hl⟩
  · rintro (⟨r, h⟩ | ⟨o, h⟩)
    · exact ⟨_, busWrite_located_reg v h⟩
    · exact ⟨_, busWrite_located_ibuf v h⟩
  · rw [not_or] at hnone
    exact busWrite_error v hnone.1 hnone.2

/-- Settles O56: the data word is `State.bufWord`, which is zero above its lanes. -/
theorem narrowReadsAreZeroExtended : Obligations.NarrowReadsAreZeroExtended := by
  intro s w b o hcfg ha hs
  exact ⟨_, _, busRead_buffer b (wf_bounds hcfg).2 ha hs, rfl, (s.bufWord_lanes b w o).2⟩

/-! ### Reads made twice -/

/-- A register's word turns on the block alone, neither on the last response nor on the draw counter. -/
theorem State.readReg_withResp (s : State) (x : BusResp) (r : Reg) :
    ({ s with resp := x } : State).readReg r = s.readReg r := by
  cases r <;> rfl

theorem State.bufWord_withResp (s : State) (x : BusResp) (b : Buf) (w : Width) (o : Nat) :
    ({ s with resp := x } : State).bufWord b w o = s.bufWord b w o := by
  cases b <;> rfl

/-- A read that leaves the draw counter is answered the same again (20_memory.md R208). -/
theorem busRead_again {w : Width} {off : Nat} {s t : State} (h : busRead w off s = .next t)
    (hquiet : s.busy = false ∨ off < 0x200000) : t.draws = s.draws ∧ busRead w off t = .next t := by
  simp only [busRead] at h
  split at h
  · cases h
  · next r hl =>
    cases h
    exact ⟨rfl, by simp only [busRead, hl, State.readReg_withResp]⟩
  · next b o hl =>
    have hdraws : s.drawsAfterRead b = s.draws := by
      obtain hb | hlt := hquiet
      · exact State.drawsAfterRead_idle hb b
      · obtain ⟨rfl, -⟩ | ⟨-, rfl⟩ := locate_buf_offset hl
        · rfl
        · omega
    rw [hdraws] at h
    cases h
    refine ⟨rfl, ?_⟩
    have hdraws' : ({ s with resp := .data (s.bufWord b w o) } : State).drawsAfterRead b = s.draws := hdraws
    simp only [busRead, hl, State.bufWord_withResp, hdraws']

/-- Settles O16: a read writes the response and the draw counter, and moves that counter in the BUSY window alone. -/
theorem readsHaveNoSideEffects : Obligations.ReadsHaveNoSideEffects := by
  intro w off s t h
  refine ⟨?_, busRead_again h⟩
  obtain ⟨x, d, rfl, -⟩ := busRead_next h
  rfl

/-! ### Writes made twice -/

/-- What a host write to an input of the command leaves, for a write that does `f` while idle (10_state.md R107). -/
def State.frozenWrite (s : State) (f : State → State) : State := { s.frozen (f s) with resp := .written }

/-- A write whose effect is not undone and not repeated by itself leaves the state the same when made again. -/
theorem State.frozenWrite_again {f : State → State} (s : State) (hbusy : (f s).busy = s.busy)
    (hagain : f { f s with resp := .written } = { f s with resp := .written }) :
    (s.frozenWrite f).frozenWrite f = s.frozenWrite f := by
  cases hb : s.busy with
  | false =>
    have hfirst : s.frozenWrite f = { f s with resp := .written } := by rw [State.frozenWrite, State.frozen_idle hb]
    have hidle : State.busy { f s with resp := .written } = false := hbusy.trans hb
    rw [hfirst, State.frozenWrite, State.frozen_idle hidle, hagain]
  | true =>
    have hfirst : s.frozenWrite f = { s.overrun with resp := .written } := by
      rw [State.frozenWrite, State.frozen_busy hb]
    have hlast : State.busy { s.overrun with resp := .written } = true := hb
    rw [hfirst, State.frozenWrite, State.frozen_busy hlast]
    rfl

theorem State.frozenWrite_cfg {f : State → State} (s : State) (hcfg : (f s).cfg = s.cfg) :
    (s.frozenWrite f).cfg = s.cfg := by
  cases hb : s.busy with
  | false => rwa [State.frozenWrite, State.frozen_idle hb]
  | true => rw [State.frozenWrite, State.frozen_busy hb, State.overrun_cfg]

/-- A write that is `frozenWrite` of one effect wherever the parameters are the same, made twice. -/
theorem busWrite_frozen_again {w : Width} {off : Nat} {v : Word} {s t : State} (f : State → State)
    (hwrite : ∀ x : State, x.cfg = s.cfg → busWrite w off v x = .next (x.frozenWrite f))
    (hbusy : (f s).busy = s.busy) (hcfg : (f s).cfg = s.cfg)
    (hagain : f { f s with resp := .written } = { f s with resp := .written })
    (h : busWrite w off v s = .next t) : busWrite w off v t = .next t := by
  rw [hwrite s rfl] at h
  cases h
  rw [hwrite _ (s.frozenWrite_cfg hcfg), s.frozenWrite_again hbusy hagain]

/-- An equal write to IN_LEN, FRAME_HDR or MASK_KEY (R208). -/
theorem busWrite_operand_again {s t : State} {v : Word} : ∀ r ∈ [Reg.inLen, .frameHdr, .maskKey],
    busWrite .w32 r.offset v s = .next t → busWrite .w32 r.offset v t = .next t := by
  simp only [List.forall_mem_cons, List.not_mem_nil, false_implies, implies_true, and_true]
  exact ⟨busWrite_frozen_again (fun x => { x with inLen := v }) (fun x _ => busWrite_reg x .inLen v) rfl rfl rfl,
    busWrite_frozen_again (fun x => { x with frameHdr := v.setWidth 9 }) (fun x _ => busWrite_reg x .frameHdr v) rfl rfl
      rfl,
    busWrite_frozen_again (fun x => { x with maskKey := v }) (fun x _ => busWrite_reg x .maskKey v) rfl rfl rfl⟩

/-- An equal write to IBUF, at any width (R208). -/
theorem busWrite_ibuf_again {s t : State} {w : Width} {o : Nat} {v : Word}
    (h : busWrite w (0x100000 + o) v s = .next t) : busWrite w (0x100000 + o) v t = .next t := by
  obtain ⟨r, hl, -⟩ | ⟨o', hl, -⟩ := busWrite_next h
  · obtain ⟨-, hoff⟩ := locate_reg_offset hl
    have := r.offset_lt
    omega
  · refine busWrite_frozen_again (fun x => { x with ibuf := x.ibuf.write o' (laneBytes w.bytes v) })
      (fun x hx => busWrite_located_ibuf v (hx ▸ hl)) rfl rfl ?_ h
    simp only [Memory.write_again]

/-- Settles O55: equal data writes are equal `frozenWrite`s, and a completed word leaves the block idle for the next. -/
theorem dataWritesAreIdempotent : Obligations.DataWritesAreIdempotent := by
  refine ⟨fun s t v off hoff h => ?_, fun s t w o v => busWrite_ibuf_again, fun s v hb => ?_⟩
  · obtain ⟨r, hr, rfl⟩ : ∃ r ∈ [Reg.inLen, .frameHdr, .maskKey], r.offset = off := List.mem_map.mp hoff
    exact busWrite_operand_again r hr h
  · obtain ⟨u, hu⟩ := runWord_next v { s.issue v with resp := .written }
    obtain ⟨⟨hdone, -⟩, -⟩ := runWord_completes hu
    have hidle : u.busy = false := State.idle_of_inflight hdone
    exact ⟨_, u, _, busWrite_cmd_idle v hb, rfl, hu, hidle, busWrite_cmd_idle v hidle, rfl⟩

end Sys2Proof.Machine
end

section
/-! PROOFS. Steps: what the step of each agent is (30_encoding.md R304, 20_memory.md R212), the BUSY window
(70_reset_and_hazards.md R912), the soft reset (R902). -/

namespace Sys2Proof.Machine

open Sys2Proof.Claims

/-! ### The step of the block -/

/-- Settles O2: the words are those of five commands, and three the decoder rejects. -/
theorem sampleCommandWordsDecode : Obligations.SampleCommandWordsDecode := by
  unfold Obligations.SampleCommandWordsDecode
  decide

/-- Settles O3: the block's step is `runWord` of the latched word, by what the decoder makes of it. -/
theorem blockStepRunsTheLatchedCommand : Obligations.BlockStepRunsTheLatchedCommand := by
  intro s w hm hi
  rw [step_inflight hi hm]
  exact ⟨fun i hd => runWord_ok hd _, fun e hd => (runWord_error hd _).trans (execBadWord_eq _)⟩

/-- Settles O4: the step runs the placed word, which decodes to the command. -/
theorem placedWordRunsNext : Obligations.PlacedWordRunsNext := by
  intro s nbits w i h
  have hd : decode (BitVec.ofNat 32 (w % 2 ^ nbits)) = .ok i := by
    unfold decodeTableWord at h
    split at h
    · next j hj => rw [hj, Option.some.inj h]
    · cases h
  rw [step_withFetchWord, runWord_ok hd]

/-! ### The step of the host -/

section
variable {s : State} {w : Width} {addr off : Nat} {rest : List HostOp}

theorem hostTurn_read (hh : s.host = .read w addr :: rest) (ho : offsetOf s.cfg addr = some off) :
    hostTurn s = busRead w off { s with host := rest } := by
  simp only [hostTurn, hh, atAddress, ho]

theorem hostTurn_write {v : Word} (hh : s.host = .write w addr v :: rest) (ho : offsetOf s.cfg addr = some off) :
    hostTurn s = busWrite w off v { s with host := rest } := by
  simp only [hostTurn, hh, atAddress, ho]

theorem hostTurn_wait (hh : s.host = .wait :: rest) :
    hostTurn s = .next { s with host := (if s.busy then .wait :: rest else rest), resp := .data s.statusWord } := by
  simp only [hostTurn, hh, pollStatus]

end

/-- Settles O5: the head of the queue decides the host's turn. -/
theorem hostStepMakesTheNextAccess : Obligations.HostStepMakesTheNextAccess := by
  intro s hm
  rw [step_host hm]
  exact ⟨fun hh => by simp only [hostTurn, hh], fun w addr rest off hh ho => hostTurn_read hh ho,
    fun w addr v rest off hh ho => hostTurn_write hh ho, fun rest hh => hostTurn_wait hh⟩

theorem offsetOf_outside {p : Params} {addr : Nat} (h : addr < p.apertureBase ∨ p.apertureBase + 0x400000 ≤ addr) :
    offsetOf p addr = none := by
  rw [offsetOf, apertureBytes, if_neg (by omega)]

/-- Settles O21: an address with no offset in the aperture reaches no access. -/
theorem accessOutsideTheApertureIsRefused : Obligations.AccessOutsideTheApertureIsRefused := by
  intro s addr rest hm hout
  rw [step_host hm]
  have hnone := offsetOf_outside hout
  exact ⟨fun w hh => by simp only [hostTurn, hh, atAddress, hnone],
    fun w v hh => by simp only [hostTurn, hh, atAddress, hnone]⟩

/-! ### The BUSY window -/

/-- Issue leaves every register but STATUS (30_encoding.md R303). -/
theorem State.readReg_issue (s : State) (v : Word) {r : Reg} (hr : r ≠ .status) :
    ({ s.issue v with resp := .written } : State).readReg r = s.readReg r := by
  cases r with
  | status => exact absurd rfl hr
  | _ => rfl

/-- Settles O19: the issued state has the registers, the STATUS fields and the lanes the statement names. -/
theorem busyWindowReads : Obligations.BusyWindowReads := by
  intro s t v hb hcfg h
  rw [show (0x08 : Nat) = Reg.cmd.offset from rfl, busWrite_cmd_idle v hb] at h
  cases h
  have hz : s.cfg.bufBytes ≤ 2 ^ 20 := (wf_bounds hcfg).2
  refine ⟨fun r hr => ⟨_, busRead_reg s r, ?_⟩, ⟨?_, ?_, ?_⟩, fun w o ha hs => ⟨⟨_, busRead_obuf hz ha hs, ?_⟩,
    ⟨_, busRead_ibuf hz ha hs, ?_⟩⟩⟩
  · rw [busRead_reg, State.readReg_issue s v hr]
  · exact State.statusWord_busy _
  · exact State.statusWord_done _
  · exact State.statusWord_err _
  · exact (State.bufWord_lanes _ .obuf w o).1
  · exact (State.bufWord_lanes _ .ibuf w o).1

/-- While BUSY a register write other than a soft reset changes CTRL.IE and STATUS alone (10_state.md R107). -/
theorem State.writeReg_busy {s : State} (r : Reg) (v : Word) (h : s.busy = true) :
    (r = .ctrl ∧ v.getLsbD 1 = true) ∨ ∃ ie st, s.writeReg r v = { s with ie := ie, status := st } := by
  cases r with
  | ctrl =>
    cases h1 : v.getLsbD 1 with
    | true => exact .inl ⟨rfl, rfl⟩
    | false => exact .inr ⟨_, _, s.writeCtrl_enable h1⟩
  | status => exact .inr ⟨_, _, rfl⟩
  | cmd | inLen | frameHdr | maskKey => exact .inr ⟨_, _, State.frozen_busy h⟩
  | outLen | payloadLen | wireLen | digest0 | digest1 | digest2 | digest3 | digest4 | bufSize => exact .inr ⟨_, _, rfl⟩

theorem busWrite_busy {w : Width} {off : Nat} {v : Word} {s t : State}
    (h : busWrite w off v s = .next t) (hb : s.busy = true) :
    (w = .w32 ∧ off = 0x00 ∧ v.getLsbD 1 = true) ∨
      ∃ ie st, t = { s with ie := ie, status := st, resp := .written } := by
  obtain ⟨r, hl, rfl⟩ | ⟨o, -, rfl⟩ := busWrite_next h
  · obtain ⟨rfl, rfl⟩ := locate_reg_offset hl
    obtain ⟨rfl, h1⟩ | ⟨ie, st, he⟩ := State.writeReg_busy r v hb
    · exact .inl ⟨rfl, rfl, h1⟩
    · exact .inr ⟨ie, st, by rw [he]⟩
  · exact .inr ⟨_, _, by rw [State.frozen_busy hb]; rfl⟩

/-- While BUSY a step of the host that is no reset changes CTRL.IE, STATUS, the host's side and the draw counter alone
(10_state.md R121). -/
theorem step_host_busy {s t : State} (hb : s.busy = true) (hm : s.mover = .host) (h : step s = .next t) :
    Resets s ∨ ∃ ie st ops sc x d,
      t = { s with ie := ie, status := st, host := ops, sched := sc, resp := x, draws := d } := by
  rw [step_host hm] at h
  obtain ⟨-, rfl⟩ | ⟨w, addr, rest, off, -, -, hr⟩ | ⟨w, addr, v, rest, off, hh, ha, hw⟩ | ⟨rest, -, rfl⟩ |
    ⟨rest, hh, -⟩ := hostTurn_next h
  · exact .inr ⟨_, _, _, _, _, _, rfl⟩
  · obtain ⟨x, d, rfl, -⟩ := busRead_next hr
    exact .inr ⟨_, _, _, _, _, _, rfl⟩
  · obtain ⟨rfl, rfl, h1⟩ | ⟨ie, st, rfl⟩ := busWrite_busy hw hb
    · exact .inl (.inr ⟨v, h1, hm, addr, rest, hh, ha⟩)
    · exact .inr ⟨_, _, _, _, _, _, rfl⟩
  · exact .inr ⟨_, _, _, _, _, _, rfl⟩
  · exact .inl (.inl ⟨hm, rest, hh⟩)

/-- Settles O20: none of the fields `step_host_busy` lets change is an input or a result. -/
theorem busyWindowFreezesInputsAndResults : Obligations.BusyWindowFreezesInputsAndResults := by
  intro s t hb hm h
  obtain hreset | ⟨ie, st, ops, sc, x, d, rfl⟩ := step_host_busy hb hm h
  · exact .inl hreset
  · exact .inr ⟨rfl, rfl, rfl, rfl, rfl, rfl, rfl, rfl, rfl, rfl, rfl, rfl, rfl⟩

/-! ### The soft reset -/

theorem State.softReset_idle {s : State} (h : s.busy = false) : s.softReset = s.resetRegisters := by
  rw [State.softReset, if_neg (ne_true_of_eq_false h)]

theorem State.softReset_busy {s : State} (h : s.busy = true) : s.softReset = s.resetRegisters.obufLost := by
  rw [State.softReset, if_pos h]

/-- The soft reset is the registers' reset, but for OBUF and its counters (R902). -/
theorem State.softReset_eq (s : State) :
    s.softReset =
      { s.resetRegisters with
        obuf := s.softReset.obuf, obufEpoch := s.softReset.obufEpoch, draws := s.softReset.draws } := by
  cases hb : s.busy with
  | false => rw [State.softReset_idle hb]
  | true => rw [State.softReset_busy hb]; rfl

theorem State.obufByte_softReset_idle {s : State} (h : s.busy = false) (a : Nat) :
    s.softReset.obufByte a = s.obufByte a := by
  rw [State.softReset_idle h]
  rfl

theorem State.obufByte_softReset_busy {s : State} (h : s.busy = true) (a : Nat) :
    s.softReset.obufByte a = Config.freeByte .obuf s.draws a := by
  rw [State.softReset_busy h]
  rfl

theorem busWrite_softReset (s : State) {v : Word} (h : v.getLsbD 1 = true) :
    busWrite .w32 0x00 v s = .next { s.softReset with resp := .written } := by
  rw [show (0x00 : Nat) = Reg.ctrl.offset from rfl, busWrite_reg, State.writeReg, State.writeCtrl_srst s h]

/-- A command in flight stays but for a completion or a reset (R900, R902). -/
theorem step_keeps_inflight {s t : State} {w : Word} (hi : s.inflight = some w) (h : step s = .next t) :
    t.inflight = some w ∨ s.mover = .block ∨ Resets s := by
  cases hm : s.mover with
  | block => exact .inr (.inl rfl)
  | host =>
    have hb : s.busy = true := State.busy_of_inflight hi
    obtain hreset | ⟨ie, st, ops, sc, x, d, rfl⟩ := step_host_busy hb hm h
    · exact .inr (.inr hreset)
    · exact .inl hi

/-- Settles O22: the write to CTRL is `State.softReset`, field by field. -/
theorem softResetAbandonsTheCommand : Obligations.SoftResetAbandonsTheCommand := by
  refine ⟨fun s v h1 => ⟨_, busWrite_softReset s h1, ?_, fun hb a => ?_, fun hb a => ?_, ?_⟩,
    fun s t w => step_keeps_inflight⟩
  · rw [State.softReset_eq]
    rfl
  · exact State.obufByte_softReset_idle hb a
  · exact State.obufByte_softReset_busy hb a
  · rw [show (0x00 : Nat) = Reg.ctrl.offset from rfl, busRead_reg, State.softReset_eq]
    rfl

end Sys2Proof.Machine
end

section
/-! PROOFS. IRQ (60_exceptions.md R841), and the runs of a legal host: no stop (R830, R831), the end of a command in
flight (70_reset_and_hazards.md R920), `RUN` (30_encoding.md R331). -/

namespace Sys2Proof.Machine

open Sys2Proof.Claims

/-! ### What a step makes of IRQ -/

theorem State.softReset_ie (s : State) : s.softReset.ie = false := by rw [State.softReset_eq, State.resetRegisters_ie]

theorem State.softReset_irq (s : State) : s.softReset.irq = false := by
  rw [State.irq, State.softReset_ie, Bool.false_and]

theorem State.overrun_irq (s : State) : s.overrun.irq = s.irq := rfl

theorem State.acknowledge_irq (s : State) (v : Word) : (s.acknowledge v).irq = (s.irq && !v.getLsbD 1) :=
  (Bool.and_assoc _ _ _).symm

/-- A frozen write sets OVR or does what it does while idle. -/
theorem State.frozen_irq {s t : State} : (s.frozen t).irq = s.irq ∨ (s.frozen t).irq = t.irq := by
  cases hb : s.busy with
  | false => exact .inr (by rw [State.frozen_idle hb])
  | true => exact .inl (by rw [State.frozen_busy hb, State.overrun_irq])

/-- What a register write makes of IRQ: only CTRL, STATUS and CMD touch it (R841). -/
theorem State.writeReg_irq (s : State) (r : Reg) (v : Word) :
    (s.writeReg r v).irq = s.irq ∨
    (r = .ctrl ∧ v.getLsbD 1 = true ∧ (s.writeReg r v).irq = false) ∨
    (r = .ctrl ∧ v.getLsbD 1 = false ∧ (s.writeReg r v).irq = (v.getLsbD 0 && s.status.done)) ∨
    (r = .status ∧ (s.writeReg r v).irq = (s.irq && !v.getLsbD 1)) ∨
    (r = .cmd ∧ (s.writeReg r v).irq = false) := by
  cases r with
  | ctrl =>
    cases h1 : v.getLsbD 1 with
    | true =>
      refine .inr (.inl ⟨rfl, rfl, ?_⟩)
      rw [State.writeReg, s.writeCtrl_srst h1, State.softReset_irq]
    | false =>
      refine .inr (.inr (.inl ⟨rfl, rfl, ?_⟩))
      rw [State.writeReg, s.writeCtrl_enable h1]
      rfl
  | status => exact .inr (.inr (.inr (.inl ⟨rfl, s.acknowledge_irq v⟩)))
  | cmd =>
    obtain h | h := State.frozen_irq (s := s) (t := s.issue v)
    · exact .inl h
    · exact .inr (.inr (.inr (.inr ⟨rfl, h.trans (Bool.and_false _)⟩)))
  | inLen | frameHdr | maskKey =>
    obtain h | h := State.frozen_irq (s := s)
    · exact .inl h
    · exact .inl h
  | outLen | payloadLen | wireLen | digest0 | digest1 | digest2 | digest3 | digest4 | bufSize => exact .inl rfl

/-- How IRQ can come out of a step (R841). -/
inductive IrqStep (s t : State) : Prop where
  | kept (h : t.irq = s.irq)
  | completion (hm : s.mover = .block) (hb : s.busy = true) (h : t.irq = s.ie)
  | reset (hr : Resets s) (h : t.irq = false)
  | enable (v : Word) (hv : v.getLsbD 1 = false) (hw : HostWrites s 0x00 v)
      (h : t.irq = (v.getLsbD 0 && s.status.done))
  | acknowledge (v : Word) (hw : HostWrites s 0x04 v) (h : t.irq = (s.irq && !v.getLsbD 1))
  | issue (v : Word) (hw : HostWrites s 0x08 v) (h : t.irq = false)

theorem step_block_irq {s t : State} (hm : s.mover = .block) (h : step s = .next t) : IrqStep s t := by
  cases hi : s.inflight with
  | none =>
    rw [step_block hm, blockTurn, hi] at h
    cases h
    exact .kept rfl
  | some w =>
    rw [step_inflight hi hm] at h
    obtain ⟨⟨-, hstatus⟩, -, hie, -⟩ := runWord_completes h
    refine .completion hm (State.busy_of_inflight hi) ?_
    rw [State.irq, hie, hstatus, Bool.and_true]

theorem step_host_irq {s t : State} (hm : s.mover = .host) (h : step s = .next t) : IrqStep s t := by
  rw [step_host hm] at h
  obtain ⟨-, rfl⟩ | ⟨w, addr, rest, off, -, -, hr⟩ | ⟨w, addr, v, rest, off, hh, ha, hw⟩ | ⟨rest, -, rfl⟩ |
    ⟨rest, hh, rfl⟩ := hostTurn_next h
  · exact .kept rfl
  · obtain ⟨x, d, rfl, -⟩ := busRead_next hr
    exact .kept rfl
  · obtain ⟨r, hl, rfl⟩ | ⟨o, -, rfl⟩ := busWrite_next hw
    · obtain ⟨rfl, rfl⟩ := locate_reg_offset hl
      have hwrites : HostWrites s r.offset v := ⟨hm, addr, rest, hh, ha⟩
      obtain hk | ⟨rfl, h1, hirq⟩ | ⟨rfl, h1, hirq⟩ | ⟨rfl, hirq⟩ | ⟨rfl, hirq⟩ := State.writeReg_irq _ r v
      · exact .kept hk
      · exact .reset (.inr ⟨v, h1, hwrites⟩) hirq
      · exact .enable v h1 hwrites hirq
      · exact .acknowledge v hwrites hirq
      · exact .issue v hwrites hirq
    · exact .kept (State.frozen_irq.elim id id)
  · exact .kept rfl
  · exact .reset (.inl ⟨hm, rest, hh⟩) rfl

theorem step_irq {s t : State} (h : step s = .next t) : IrqStep s t := by
  cases hm : s.mover with
  | block => exact step_block_irq hm h
  | host => exact step_host_irq hm h

theorem irq_rises {s t : State} (hstep : IrqStep s t) (hs : s.irq = false) (ht : t.irq = true) :
    (s.mover = .block ∧ s.busy = true ∧ s.ie = true) ∨
      ∃ v, v.getLsbD 0 = true ∧ v.getLsbD 1 = false ∧ HostWrites s 0x00 v ∧ s.status.done = true := by
  cases hstep with
  | kept h => simp [h, hs] at ht
  | completion hm hb h => exact .inl ⟨hm, hb, h ▸ ht⟩
  | reset hr h => simp [h] at ht
  | enable v hv hw h =>
    obtain ⟨h0, hdone⟩ := Bool.and_eq_true_iff.mp (h.symm.trans ht)
    exact .inr ⟨v, h0, hv, hw, hdone⟩
  | acknowledge v hw h => simp [h, hs] at ht
  | issue v hw h => simp [h] at ht

theorem irq_falls {s t : State} (hstep : IrqStep s t) (hs : s.irq = true) (ht : t.irq = false) :
    Resets s ∨ (∃ v, v.getLsbD 0 = false ∧ HostWrites s 0x00 v) ∨
      (∃ v, v.getLsbD 1 = true ∧ HostWrites s 0x04 v) ∨ ∃ v, HostWrites s 0x08 v := by
  obtain ⟨hie, hdone⟩ := Bool.and_eq_true_iff.mp hs
  cases hstep with
  | kept h => simp [h, hs] at ht
  | completion hm hb h => simp [h, hie] at ht
  | reset hr h => exact .inl hr
  | enable v hv hw h => exact .inr (.inl ⟨v, by simpa [hdone, ht] using h.symm, hw⟩)
  | acknowledge v hw h => exact .inr (.inr (.inl ⟨v, by simpa [hs, ht] using h.symm, hw⟩))
  | issue v hw h => exact .inr (.inr (.inr ⟨v, hw⟩))

/-- Settles O25: the rises and the falls are cases of `IrqStep`. -/
theorem interruptFollowsDoneAndEnable : Obligations.InterruptFollowsDoneAndEnable := fun _ _ h =>
  ⟨irq_rises (step_irq h), irq_falls (step_irq h)⟩

/-! ### The host's side over a step -/

theorem State.writeReg_hostSide (s : State) (r : Reg) (v : Word) :
    (s.writeReg r v).cfg = s.cfg ∧ (s.writeReg r v).host = s.host ∧ (s.writeReg r v).sched = s.sched := by
  obtain h | h | ⟨b, h⟩ | h | ⟨-, h⟩ | ⟨-, h | h | h | h⟩ := s.writeReg_cases r v <;> rw [h]
  case inr.inl => rw [State.softReset_eq]; exact ⟨rfl, rfl, rfl⟩
  all_goals exact ⟨rfl, rfl, rfl⟩

theorem State.frozen_ibuf_hostSide (s : State) (m : Memory) :
    (s.frozen { s with ibuf := m }).cfg = s.cfg ∧ (s.frozen { s with ibuf := m }).host = s.host ∧
      (s.frozen { s with ibuf := m }).sched = s.sched := by
  cases hb : s.busy with
  | false => rw [State.frozen_idle hb]; exact ⟨rfl, rfl, rfl⟩
  | true => rw [State.frozen_busy hb]; exact ⟨rfl, rfl, rfl⟩

theorem busWrite_hostSide {w : Width} {off : Nat} {v : Word} {s t : State} (h : busWrite w off v s = .next t) :
    t.cfg = s.cfg ∧ t.host = s.host ∧ t.sched = s.sched := by
  obtain ⟨r, -, rfl⟩ | ⟨o, -, rfl⟩ := busWrite_next h
  · exact s.writeReg_hostSide r v
  · exact s.frozen_ibuf_hostSide _

theorem hostTurn_hostSide {s t : State} (h : hostTurn s = .next t) :
    t.cfg = s.cfg ∧ t.host ⊆ s.host ∧ t.sched = s.sched := by
  obtain ⟨-, rfl⟩ | ⟨w, addr, rest, off, hh, -, hr⟩ | ⟨w, addr, v, rest, off, hh, -, hw⟩ | ⟨rest, hh, rfl⟩ |
    ⟨rest, hh, rfl⟩ := hostTurn_next h
  · exact ⟨rfl, List.Subset.refl _, rfl⟩
  · obtain ⟨x, d, rfl, -⟩ := busRead_next hr
    exact ⟨rfl, hh ▸ List.subset_cons_self _ _, rfl⟩
  · obtain ⟨hcfg, hhost, hsched⟩ := busWrite_hostSide hw
    exact ⟨hcfg, hhost ▸ hh ▸ List.subset_cons_self _ _, hsched⟩
  · refine ⟨rfl, ?_, rfl⟩
    rw [hh]
    simp only
    split_ifs
    · exact List.Subset.refl _
    · exact List.subset_cons_self _ _
  · exact ⟨rfl, hh ▸ List.subset_cons_self _ _, rfl⟩

theorem blockTurn_hostSide {s t : State} (h : blockTurn s = .next t) :
    t.cfg = s.cfg ∧ t.host = s.host ∧ t.sched = s.sched := by
  cases hi : s.inflight with
  | none =>
    rw [blockTurn, hi] at h
    cases h
    exact ⟨rfl, rfl, rfl⟩
  | some w =>
    rw [blockTurn_inflight hi] at h
    obtain ⟨-, hcfg, -, -, -, hhost, hsched, -⟩ := runWord_completes h
    exact ⟨hcfg, hhost, hsched⟩

/-- A step leaves the parameters, takes one turn off the schedule, and adds no operation to the queue. -/
theorem step_hostSide {s t : State} (h : step s = .next t) :
    t.cfg = s.cfg ∧ t.host ⊆ s.host ∧ t.sched = s.sched.tail := by
  cases hm : s.mover with
  | block =>
    obtain ⟨hcfg, hhost, hsched⟩ := blockTurn_hostSide (step_block hm ▸ h)
    exact ⟨hcfg, hhost ▸ List.Subset.refl _, hsched⟩
  | host => exact hostTurn_hostSide (step_host hm ▸ h)

/-! ### A legal host -/

theorem legal_read {cfg : Params} {w : Width} {addr : Nat} (h : (HostOp.read w addr).legal cfg = true) :
    ∃ off target, offsetOf cfg addr = some off ∧ locate cfg.bufBytes w off = .ok target := by
  simp only [HostOp.legal] at h
  split at h
  · cases h
  · next off ho =>
    cases hl : locate cfg.bufBytes w off with
    | ok target => exact ⟨off, target, ho, hl⟩
    | error e => simp [hl, Except.toOption] at h

theorem legal_write {cfg : Params} {w : Width} {addr : Nat} {v : Word}
    (h : (HostOp.write w addr v).legal cfg = true) :
    ∃ off, offsetOf cfg addr = some off ∧
      ((∃ r, locate cfg.bufBytes w off = .ok (.reg r)) ∨ ∃ o, locate cfg.bufBytes w off = .ok (.buf .ibuf o)) := by
  simp only [HostOp.legal] at h
  split at h
  · cases h
  · next off ho =>
    refine ⟨off, ho, ?_⟩
    split at h
    · next r hl => exact .inl ⟨r, hl⟩
    · next o hl => exact .inr ⟨o, hl⟩
    · cases h
    · cases h

/-- The host's turn on a legal operation answers a next state (60_exceptions.md R830). -/
theorem hostTurn_legal {s : State} (hl : s.legalHost) : ∃ t, hostTurn s = .next t := by
  cases hh : s.host with
  | nil => exact ⟨s, by simp only [hostTurn, hh]⟩
  | cons op rest =>
    have hop : op.legal s.cfg = true := hl op (hh ▸ List.mem_cons_self)
    cases op with
    | read w addr =>
      obtain ⟨off, target, ho, hloc⟩ := legal_read hop
      rw [hostTurn_read hh ho]
      exact busRead_located hloc
    | write w addr v =>
      obtain ⟨off, ho, ⟨r, hloc⟩ | ⟨o, hloc⟩⟩ := legal_write hop
      · exact ⟨_, (hostTurn_write hh ho).trans (busWrite_located_reg v hloc)⟩
      · exact ⟨_, (hostTurn_write hh ho).trans (busWrite_located_ibuf v hloc)⟩
    | wait => exact ⟨_, hostTurn_wait hh⟩
    | hardReset => exact ⟨_, by simp only [hostTurn, hh]; rfl⟩

theorem blockTurn_answers (s : State) : ∃ t, blockTurn s = .next t := by
  cases hi : s.inflight with
  | none => exact ⟨s, by rw [blockTurn, hi]⟩
  | some w =>
    rw [blockTurn_inflight hi]
    exact runWord_next w s

/-- Settles O28: either agent's turn answers, and a step adds no operation to the queue. -/
theorem legalHostProgramsNeverStop : Obligations.LegalHostProgramsNeverStop := by
  intro s hl
  obtain ⟨t, ht⟩ : ∃ t, step s = .next t := by
    cases hm : s.mover with
    | block => rw [step_block hm]; exact blockTurn_answers _
    | host => rw [step_host hm]; exact hostTurn_legal hl
  obtain ⟨hcfg, hhost, -⟩ := step_hostSide ht
  exact ⟨t, ht, fun op hop => hcfg ▸ hl op (hhost hop)⟩

/-! ### Runs -/

theorem run_succ {k : Nat} {s t : State} (h : step s = .next t) :
    Host.Core.run Sys2Proof.core (k + 1) s = Host.Core.run Sys2Proof.core k t := by
  have hcore : Sys2Proof.core.step s = .next t := h
  simp only [Host.Core.run, hcore]

/-- The bound, by induction on the schedule: each step takes a turn off it, and with none left the block completes. -/
theorem inflight_ends (sched : List Agent) : ∀ s : State, s.sched = sched → s.legalHost → s.busy = true →
    ∃ k t, k ≤ sched.length + 1 ∧ Host.Core.run Sys2Proof.core k s = .next t ∧ t.busy = false := by
  induction sched with
  | nil =>
    intro s hs _ hb
    obtain ⟨w, hi⟩ := Option.isSome_iff_exists.mp hb
    have hm : s.mover = .block := by rw [mover_of_sched_nil hs, if_pos hb]
    obtain ⟨t, ht, hidle, -⟩ := everyCompletionSetsDone s w hi hm
    exact ⟨1, t, le_refl _, run_succ ht, hidle⟩
  | cons a sched ih =>
    intro s hs hl _
    obtain ⟨t, ht, hlt⟩ := legalHostProgramsNeverStop s hl
    have hst : t.sched = sched := by rw [(step_hostSide ht).2.2, hs, List.tail_cons]
    cases hb : t.busy with
    | false => exact ⟨1, t, by simp, run_succ ht, hb⟩
    | true =>
      obtain ⟨k, u, hk, hu, hidle⟩ := ih t hst hlt hb
      exact ⟨k + 1, u, by simpa using hk, (run_succ ht).trans hu, hidle⟩

/-- Settles O29, by induction on the schedule. -/
theorem commandInFlightEnds : Obligations.CommandInFlightEnds := fun s hl hb => inflight_ends s.sched s rfl hl hb

/-- A turn off an empty schedule is none. -/
theorem State.sched_tail {s : State} (h : s.sched = []) : ({ s with sched := s.sched.tail } : State) = s := by
  rw [h, List.tail_nil, ← h]

/-- A write to CMD at its host address, while idle, is the issue (R303, R330). -/
theorem step_cmdWrite {s : State} {i : Instr} {rest : List HostOp} (hb : s.busy = false) (hs : s.sched = [])
    (hh : s.host = wrReg s.cfg .cmd (encode i) :: rest) :
    step s = .next { s.issue (encode i) with host := rest, resp := .written } := by
  have hm : s.mover = .host := by rw [mover_of_sched_nil hs, if_neg (ne_true_of_eq_false hb)]
  have hoff : offsetOf s.cfg (addrOf s.cfg Reg.cmd.offset) = some Reg.cmd.offset := offsetOf_addrOf _ _ (by decide)
  rw [step_host hm, State.sched_tail hs, hostTurn_write hh hoff]
  exact busWrite_cmd_idle (s := { s with host := rest }) _ hb

/-- With the schedule used up and a command latched, the step is its completion (R304, R920). -/
theorem step_completes {s : State} {i : Instr} (hs : s.sched = []) (hi : s.inflight = some (encode i)) :
    step s = exec i s := by
  have hb : s.busy = true := State.busy_of_inflight hi
  have hm : s.mover = .block := by rw [mover_of_sched_nil hs, if_pos hb]
  rw [step_inflight hi hm, State.sched_tail hs, runWord_ok (decode_encode i)]

/-- A poll that finds the block idle ends the WAIT (R331). -/
theorem step_lastPoll {s : State} {rest : List HostOp} (hb : s.busy = false) (hs : s.sched = [])
    (hh : s.host = .wait :: rest) : step s = .next { s with host := rest, resp := .data s.statusWord } := by
  have hm : s.mover = .host := by rw [mover_of_sched_nil hs, if_neg (ne_true_of_eq_false hb)]
  rw [step_host hm, State.sched_tail hs, hostTurn_wait hh, if_neg (ne_true_of_eq_false hb)]

/-- Settles O30: the three steps are the CMD write, the completion and the poll that finds the block idle. -/
theorem runIssuesCompletesAndWaits : Obligations.RunIssuesCompletesAndWaits := by
  intro s t i rest hb hs hh hexec
  obtain ⟨⟨hidle, -⟩, -, -, -, -, hhost, hsched, -⟩ := exec_completes hexec
  have hbt : t.busy = false := State.idle_of_inflight hidle
  have hissue := step_cmdWrite (rest := .wait :: rest) hb hs hh
  have hcomplete := (step_completes (s := { s.issue (encode i) with host := .wait :: rest, resp := .written }) hs
    rfl).trans hexec
  have hpoll := step_lastPoll hbt (hsched.trans hs) hhost
  exact (run_succ hissue).trans ((run_succ hcomplete).trans (run_succ hpoll))

end Sys2Proof.Machine
end
